-- ==== Sys2Proof/Word.lean ====
section
/-! DEFINITION. The word types of the Format Encoder (spec/00_scope.md R7): what the spec treats as bits. -/

namespace Sys2Proof

/-- A register word, a command word, a memory address held in a register (spec/10_state.md R21). -/
abbrev Word := BitVec 32

/-- A 16-bit field: WIDTH, HEIGHT, one P010 sample (spec/10_state.md R28, spec/42_layout_packers.md R153). -/
abbrev Half := BitVec 16

/-- One byte of memory: a source component or an output byte (spec/20_memory.md R58). -/
abbrev Byte := BitVec 8

end Sys2Proof
end

