-- ==== Sys2Proof/Config.lean ====
section
/-! DEFINITION. What is fixed for one machine: the constants of spec/00_scope.md R6 and
spec/40_color_transform.md R102, the OPEN parameters of R6 as plain data (`Params`), and the free
values the spec leaves open (who moves next, in which order the engine writes: R61, R240). -/

namespace Sys2Proof

namespace Config

/-- The engine's memory space has 2^32 byte addresses (`ADDR_W` = 32; spec/20_memory.md R50). -/
abbrev memSize : Nat := 4294967296

/-- `W_RESET` (spec/00_scope.md R6). -/
abbrev widthReset : Half := 1920#16

/-- `H_RESET` (spec/00_scope.md R6). -/
abbrev heightReset : Half := 1080#16

/-- `REG_WINDOW`, the size of the register window in bytes (spec/00_scope.md R6). -/
abbrev regWindow : Nat := 32

/-! The fixed-point constants of spec/40_color_transform.md R102. -/

abbrev kYR : Int := 299000
abbrev kYG : Int := 587000
abbrev kYB : Int := 114000
abbrev kUR : Int := -168736
abbrev kUG : Int := -331264
abbrev kUB : Int := 500000
abbrev kVR : Int := 500000
abbrev kVG : Int := -418688
abbrev kVB : Int := -81312
abbrev bias : Int := 128000000
abbrev fs : Int := 255000000

/-- The limited-range spans of luma and chroma (spec/40_color_transform.md R101, R105). -/
abbrev spanY : Int := 219
abbrev spanC : Int := 224

/-- FREE VALUE (log entry 1): how many steps the host takes before the engine's next one.
Being a number, it is finite: the weak fairness of spec/70_reset_and_hazards.md R240. -/
opaque hostBurst : Nat → Nat

/-- FREE VALUE (log entry 1): which of the offsets not yet written the engine writes next
(spec/20_memory.md R61: the order is unspecified). -/
opaque enginePick : Nat → Nat

/-- FREE VALUE (log entry 2): whether the engine reads a source byte besides those its next write needs, and which
(spec/20_memory.md R63: each source byte is read any number of times). -/
opaque engineProbe : Nat → Nat

end Config

/-- The three channels the colour transform computes (spec/40_color_transform.md R100). -/
inductive Channel where
  | y | u | v
deriving DecidableEq, Repr

/-- One point at which `CT_TIE_DOWN` is asked to hold (spec/40_color_transform.md R110). -/
structure TiePoint where
  ch : Channel
  r  : Byte
  g  : Byte
  b  : Byte
deriving DecidableEq, Repr

/-- A stretch of the memory space: `size` bytes from `base`. -/
structure Region where
  base : Nat
  size : Nat
deriving DecidableEq, Repr

/-- The parameters the spec leaves OPEN, which a model "takes as an argument"
(spec/00_scope.md R6, spec/93_implementation_defined.md section 1). They stand in State, no step
changes them, and statements hold for every value of them (log entry 4). -/
structure Params where
  /-- `REG_BASE`: where the register window lies in the host's address space (R6, R50). -/
  regBase        : Nat
  /-- Where the platform maps the register window into the engine's memory space, if it does (R51). -/
  windowInMemory : Option Nat
  /-- Locations of the memory space with read or write side effects (R59). -/
  sideEffects    : List Region
  /-- Locations whose memory requests the platform does not admit (R60). DESIGN CHOICE (log entry 4): the same for
  reads and writes, the engine's and the host's. -/
  notAdmitted    : List Region
  /-- The points at which `CT_TIE_DOWN` holds; an entry that is no tie point has no effect (R110). -/
  tieDown        : List TiePoint
deriving DecidableEq, Repr

/-- The parameters' values in `State.reset`: `CT_TIE_DOWN` false everywhere as the spec's default says
(R6, R110); the others are a DESIGN CHOICE (log entry 4). -/
def Params.default : Params :=
  { regBase := 0, windowInMemory := none, sideEffects := [], notAdmitted := [], tieDown := [] }

end Sys2Proof
end

