-- ==== Sys2Proof/Syntax.lean ====
section
/-! DEFINITION. The commands of the block (spec/30_encoding.md R81, one constructor per row of
spec/opcode_table.json), the formats they select, the registers of the window, and the host
statements that reach the block (R87, R88). -/

namespace Sys2Proof

/-- The eight output formats (spec/00_scope.md R2). -/
inductive PixelFormat where
  | rgb24 | xrgb32 | yuv444 | i420 | nv12 | yuyv | uyvy | p010
deriving DecidableEq, Repr

/-- The eight commands (spec/30_encoding.md R81). A command has no operand field: its operands are the
registers WIDTH, HEIGHT, SRC_ADDR and DST_ADDR, read when it is issued (R82). -/
inductive Instr where
  | encodeRgb24
  | encodeXrgb32
  | encodeYuv444
  | encodeI420
  | encodeNv12
  | encodeYuyv
  | encodeUyvy
  | encodeP010
deriving DecidableEq, Repr

/-- The format a command encodes to (spec/30_encoding.md R81, column "format"). -/
def Instr.format : Instr → PixelFormat
  | .encodeRgb24 => .rgb24
  | .encodeXrgb32 => .xrgb32
  | .encodeYuv444 => .yuv444
  | .encodeI420 => .i420
  | .encodeNv12 => .nv12
  | .encodeYuyv => .yuyv
  | .encodeUyvy => .uyvy
  | .encodeP010 => .p010

/-- The named registers of the window (spec/10_state.md R21). -/
inductive Reg where
  | cmd | status | width | height | srcAddr | dstAddr | outLen
deriving DecidableEq, Repr

/-- A host statement as the model runs it (spec/30_encoding.md R87). Host variables and labels are
numbered. `busWrite` and `busRead` are register accesses of any width and offset of the window, so
that what the spec says of reserved offsets (R33), of byte lanes (R56) and of badly shaped accesses
(R57) can be said; `reset` is the block's reset (spec/70_reset_and_hazards.md R230). -/
inductive HostStmt where
  /-- `WR reg, v` -/
  | wr       (reg : Reg) (v : Word)
  /-- `RD reg -> x` -/
  | rd       (reg : Reg) (x : Nat)
  /-- a write of `lanes.length` bytes at REG_BASE + off, the byte for the lowest address first -/
  | busWrite (off : Fin 32) (lanes : List Byte)
  /-- a read of `width` bytes at REG_BASE + off into x -/
  | busRead  (off : Fin 32) (width : Nat) (x : Nat)
  /-- `MW addr, b0 b1 ...` -/
  | mw       (addr : Nat) (bs : List Byte)
  /-- `MR addr, n -> x`; `got` are the bytes already read -/
  | mr       (addr : Nat) (n : Nat) (x : Nat) (got : List Byte)
  /-- `l:` -/
  | label    (l : Nat)
  /-- `IF x[bit] = v GOTO l` -/
  | ifGoto   (x : Nat) (bit : Nat) (v : Bool) (l : Nat)
  /-- reset of the block -/
  | reset
deriving DecidableEq, Repr

/-- A line of a host program as written, pseudo-instructions included (spec/30_encoding.md R87, R88).
Immediates are numbers here: one above 0xFFFFFFFF is refused by the assembler. -/
inductive AsmStmt where
  | wr           (reg : Reg) (imm : Nat)
  | rd           (reg : Reg) (x : Nat)
  | mw           (addr : Nat) (bs : List Byte)
  | mr           (addr : Nat) (n : Nat) (x : Nat)
  | label        (l : Nat)
  | ifGoto       (x : Nat) (bit : Nat) (v : Bool) (l : Nat)
  /-- `ENCODE.<FMT>` -/
  | encode       (i : Instr)
  /-- `ENCODE.YUV420`, another spelling of `ENCODE.I420` (R85) -/
  | encodeYuv420
  /-- `SETUP w, h, src, dst` -/
  | setup        (w h src dst : Nat)
  /-- `WAIT -> x` -/
  | wait         (x : Nat)
deriving DecidableEq, Repr

/-- A bus transaction of a host statement (spec/30_encoding.md R87, third column). -/
inductive BusTxn where
  | regWrite (addr : Nat) (lanes : List Byte)
  | regRead  (addr : Nat) (width : Nat)
  | memWrite (addr : Nat) (b : Byte)
  | memRead  (addr : Nat)
deriving DecidableEq, Repr

end Sys2Proof
end

