-- ==== Sys2Proof/WellFormed.lean ====
section
/-! DEFINITION. Which commands, host statements and host programs are well formed. -/

namespace Sys2Proof

/-- Every command is well formed: it has no operand that could be out of range (spec/30_encoding.md R82). -/
def Instr.wf : Instr → Bool
  | .encodeRgb24 => true
  | .encodeXrgb32 => true
  | .encodeYuv444 => true
  | .encodeI420 => true
  | .encodeNv12 => true
  | .encodeYuyv => true
  | .encodeUyvy => true
  | .encodeP010 => true

/-- The shape a register access must have: an aligned 32-bit word (spec/20_memory.md R57). -/
def aligned32 (off : Fin 32) (width : Nat) : Bool := width == 4 && off.val % 4 == 0

/-- A host statement is well formed when its memory accesses lie in the memory space (R50), its register
accesses are aligned words (R57) and the bit it tests is below 32. DESIGN CHOICE (log entry 18): R87 speaks of "a bit of
a host variable" and bounds no bit; the model calls a test of bit 32 or above ill-formed, for a word, which has no such
bit, and for bytes alike, although the step gives such a bit of bytes its value (`HostVal.bit`). -/
def HostStmt.wf : HostStmt → Bool
  | .wr _ _ => true
  | .rd _ _ => true
  | .busWrite off lanes => aligned32 off lanes.length
  | .busRead off width _ => aligned32 off width
  | .mw a bs => a + bs.length ≤ Config.memSize
  | .mr a n _ _ => a + n ≤ Config.memSize
  | .label _ => true
  | .ifGoto _ bit _ _ => bit < 32
  | .reset => true

/-- The label a statement defines. -/
def HostStmt.defines : HostStmt → List Nat
  | .label l => [l]
  | _ => []

/-- The label a statement jumps to. -/
def HostStmt.jumpsTo : HostStmt → List Nat
  | .ifGoto _ _ _ l => [l]
  | _ => []

/-- A host program is well formed when its statements are, no label is defined twice, and every label
jumped to is defined (R87: a label "names the next statement"). DESIGN CHOICE (log entry 9): a label that is the
program's last line is well formed too. -/
def HostProgram.wf (p : List HostStmt) : Bool :=
  let labels := p.flatMap HostStmt.defines
  p.all HostStmt.wf && decide labels.Nodup && (p.flatMap HostStmt.jumpsTo).all labels.contains

/-- An immediate of a host program fits 32 bits: "an immediate above 0xFFFFFFFF is a syntax error" (R87). -/
def immWf (n : Nat) : Bool := n < 4294967296

/-- A written line is well formed when its immediates fit 32 bits (R87). -/
def AsmStmt.wf : AsmStmt → Bool
  | .wr _ n => immWf n
  | .rd _ _ => true
  | .mw a _ => immWf a
  | .mr a _ _ => immWf a
  | .label _ => true
  | .ifGoto _ _ _ _ => true
  | .encode i => i.wf
  | .encodeYuv420 => true
  | .setup w h src dst => immWf w && immWf h && immWf src && immWf dst
  | .wait _ => true

end Sys2Proof
end

