-- ==== Sys2Proof/Decode.lean ====
section
/-! DEFINITION. The decoder of a command word, total on any bytes, and the encoder (spec/30_encoding.md
R80, R81, R83, R86; byte lanes of a register word: spec/20_memory.md R56). -/

namespace Sys2Proof

/-- Why bytes are no command. -/
inductive DecodeError where
  /-- fewer than the four bytes of a command word (R80) -/
  | truncated
  /-- a word above 7: it names no format (R83) -/
  | invalidFormatName (c : Word)
deriving DecidableEq, Repr

/-- Byte k of a register word holds bits 8k+7:8k (spec/20_memory.md R56 (b)). -/
def laneOf (w : Word) (k : Nat) : Byte := (w >>> (8 * k)).setWidth 8

/-- The four bytes of a register word, the one at the lowest address first (R56 (b)). -/
def bytesOfWord (w : Word) : List Byte := [laneOf w 0, laneOf w 1, laneOf w 2, laneOf w 3]

/-- The register word four bytes make, the one at the lowest address first (R56 (b)). -/
def wordOfLanes (b0 b1 b2 b3 : Byte) : Word := b3 ++ b2 ++ b1 ++ b0

/-- The command a command word names (R86). -/
def decodeWord (c : Word) : Except DecodeError Instr :=
  match c.toNat with
  | 0 => .ok .encodeRgb24
  | 1 => .ok .encodeXrgb32
  | 2 => .ok .encodeYuv444
  | 3 => .ok .encodeI420
  | 4 => .ok .encodeNv12
  | 5 => .ok .encodeYuyv
  | 6 => .ok .encodeUyvy
  | 7 => .ok .encodeP010
  | _ => .error (.invalidFormatName c)

/-- The command at the front of a list of bytes, and the bytes after it (R80: exactly one word). -/
def decode : List Byte → Except DecodeError (Instr × List Byte)
  | b0 :: b1 :: b2 :: b3 :: rest =>
    match decodeWord (wordOfLanes b0 b1 b2 b3) with
    | .ok i => .ok (i, rest)
    | .error e => .error e
  | _ => .error .truncated

/-- The command word of a command (R81, column "FMT"). -/
def encodeWord : Instr → Word
  | .encodeRgb24 => 0x00000000#32
  | .encodeXrgb32 => 0x00000001#32
  | .encodeYuv444 => 0x00000002#32
  | .encodeI420 => 0x00000003#32
  | .encodeNv12 => 0x00000004#32
  | .encodeYuyv => 0x00000005#32
  | .encodeUyvy => 0x00000006#32
  | .encodeP010 => 0x00000007#32

/-- The bytes of a command, as a host's word write puts them on the bus. -/
def encode (i : Instr) : List Byte := bytesOfWord (encodeWord i)

/-- The word of `nbits` bits that the host numbers w; every bit above them is 0. -/
def tableWord (nbits w : Nat) : Word := BitVec.ofNat 32 (w % 2 ^ nbits)

/-- The command the decoder reads from a word numbered as spec/opcode_table.json numbers it. -/
def decodeTableWord (nbits w : Nat) : Option Instr :=
  match decode (bytesOfWord (tableWord nbits w)) with
  | .ok (i, _) => some i
  | .error _ => none

end Sys2Proof
end

