-- ==== Sys2Proof/Machine/State.lean ====
section
/-! DEFINITION. The state of the machine: the block's registers and job (spec/10_state.md R20 to R35), the
memory it reaches (R40, R41), the host that drives it (spec/00_scope.md R14) and what decides which of
the two agents moves next (log entry 1). -/

namespace Sys2Proof.Machine

/-- Why the machine stops with a fault. Both are raised by the HOST's own memory statements
(`MW`, `MR`), never by a command. -/
inductive Fault where
  /-- Raised by `hostAccessStop`: the host addresses a byte past 0xFFFFFFFF, which the memory space of
  spec/20_memory.md R50 does not have. Safe: the run stops. -/
  | hostAddressOutsideMemory
  /-- Raised by `hostAccessStop`: the host addresses a byte the platform does not admit (R60 says what such
  a request does to the engine, not to the host). Safe: the run stops. -/
  | hostAccessNotAdmitted
deriving DecidableEq, Repr

/-- Why the machine gives no meaning to what it is asked to do. Each but the first is one of the contract
violations the spec tells the model to refuse. -/
inductive Refusal where
  /-- An arm of `exec` without a meaning. No arm raises it. Safe. -/
  | notModelled (mnemonic : String)
  /-- Raised by `issue`: a range of the job passes address 0xFFFFFFFF (spec/20_memory.md R54). Safe. -/
  | rangePastTop
  /-- Raised by `issue`: the source and destination ranges share an address (R55). Safe. -/
  | rangesOverlap
  /-- Raised by `issue`: a range of the job reaches the register window (R51). Safe. -/
  | rangeMeetsRegisterWindow
  /-- Raised by `issue`: a range of the job reaches a location with side effects (R59). Safe. -/
  | rangeMeetsSideEffects
  /-- Raised by `hostStep` and `hostAccessStop`: a register access that is no aligned 32-bit access
  (R57, spec/60_exceptions.md R208 (d)). Safe. -/
  | registerAccessShape
  /-- Raised by `hostStore`: the host writes a byte of the source or destination range while BUSY = 1
  (spec/70_reset_and_hazards.md R236, R237). Safe. -/
  | hostWriteDuringJob
  /-- Raised by `hostAccessStop`: the host's memory statement reaches a location with side effects, a
  device whose behaviour the spec does not give (R59). Safe. -/
  | hostAccessHasSideEffects
  /-- Raised by `hostStep`: a host program jumps to a label it does not define (R87). Safe. -/
  | undefinedLabel
deriving DecidableEq, Repr

/-- STATUS.ERRCODE (spec/10_state.md R26, spec/60_exceptions.md R200); its value 3 is never produced, so it
has no constructor. -/
inductive ErrCode where
  | none
  | invalidDimensions
  | invalidFormatName
deriving DecidableEq, Repr

/-- The fields of STATUS but BUSY, which is the presence of a job (R23, R35). -/
structure Status where
  /-- STATUS.DONE, bit 1 (R24) -/
  done    : Bool
  /-- STATUS.ERR, bit 2 (R25) -/
  err     : Bool
  /-- STATUS.ERRCODE, bits 5:4 (R26) -/
  errcode : ErrCode
deriving DecidableEq, Repr

/-- The job state of spec/10_state.md R35 while `job.active` = 1. -/
structure Job where
  /-- `job.fmt` -/
  fmt     : PixelFormat
  /-- `job.W` -/
  w       : Nat
  /-- `job.H` -/
  h       : Nat
  /-- `job.SRC` -/
  src     : Nat
  /-- `job.DST` -/
  dst     : Nat
  /-- `job.LEN` -/
  len     : Nat
  /-- `job.written`, the offsets already written, strictly rising -/
  written : List Nat
  /-- a request of the engine was not admitted: it has no step any more (spec/20_memory.md R60) -/
  stuck   : Bool
deriving DecidableEq, Repr

/-- What decides which agent moves and what the engine does next: the drawn free values and the counter
they are drawn with (log entry 1). The model's own field. -/
structure Sched where
  /-- how many more steps the host may take before the engine's next one -/
  burst : Nat
  /-- which of the offsets not yet written is next -/
  pick  : Nat
  /-- whether a source byte is read besides, and which: 0 none, k + 1 the one with offset k in the source range -/
  probe : Nat
  /-- how many draws were made -/
  draws : Nat
deriving DecidableEq, Repr

/-- What a host variable holds: a register word (`RD`) or bytes (`MR`) (spec/30_encoding.md R87). -/
inductive HostVal where
  | word  (w : Word)
  | bytes (bs : List Byte)
deriving DecidableEq, Repr

/-- The host: its program, what is left of it, and its variables (R87). -/
structure HostSide where
  /-- the whole program, in which labels are looked up -/
  prog : List HostStmt
  /-- the statements still to run, the next one first -/
  rest : List HostStmt
  /-- the variables that have a value, by number, strictly rising -/
  vars : List (Nat × HostVal)
deriving DecidableEq, Repr

/-- Memory in its one canonical form (see `Memory.wf`). -/
abbrev Memory := List Host.Cell

/-- The machine's state. CMD (R22) and offset 0x1C (R33) hold no value. -/
structure State where
  /-- the OPEN parameters of spec/00_scope.md R6; no step changes them -/
  params  : Params
  /-- STATUS but BUSY (R24 to R26) -/
  status  : Status
  /-- WIDTH bits 15:0 (R28) -/
  width   : Half
  /-- HEIGHT bits 15:0 (R29) -/
  height  : Half
  /-- SRC_ADDR (R30) -/
  srcAddr : Word
  /-- DST_ADDR (R31) -/
  dstAddr : Word
  /-- OUT_LEN (R32) -/
  outLen  : Word
  /-- the job; `none` when `job.active` = 0, that is when STATUS.BUSY = 0 (R23, R35) -/
  job     : Option Job
  /-- the memory space (spec/20_memory.md R50) -/
  mem     : Memory
  /-- the host agent (spec/00_scope.md R14) -/
  host    : HostSide
  /-- which agent moves next (log entry 1) -/
  sched   : Sched
deriving DecidableEq, Repr

/-- The machine right after reset (spec/70_reset_and_hazards.md R230): every register at the value of
spec/10_state.md R21, no job. The host has no program yet (log entry 6), memory lists nothing (log entry
3), the parameters have their default (log entry 4), the free values' fields are 0 and nothing reads
them before a job's acceptance draws them anew (log entry 1). -/
def State.reset : State :=
  { params := Params.default
    status := { done := false, err := false, errcode := .none }
    width := Config.widthReset
    height := Config.heightReset
    srcAddr := 0#32
    dstAddr := 0#32
    outLen := 0#32
    job := none
    mem := []
    host := { prog := [], rest := [], vars := [] }
    sched := { burst := 0, pick := 0, probe := 0, draws := 0 } }

end Sys2Proof.Machine
end

