-- ==== Sys2Proof/Machine/Flags.lean ====
section
/-! DEFINITION. The STATUS register: its fields, its word, and how a command word clears and sets it
(spec/10_state.md R23 to R27). The block has no other flags (R38). -/

namespace Sys2Proof.Machine

/-- STATUS.BUSY: a job is active (R23, R35). -/
def State.busy (s : State) : Bool := s.job.isSome

/-- The value of STATUS.ERRCODE (R26, spec/60_exceptions.md R200). -/
def ErrCode.value : ErrCode → Nat
  | .none => 0
  | .invalidDimensions => 1
  | .invalidFormatName => 2

/-- STATUS as a 32-bit word: BUSY bit 0, DONE bit 1, ERR bit 2, ERRCODE bits 5:4, the rest 0 (R23 to R27). -/
def statusWord (busy : Bool) (st : Status) : Word :=
  BitVec.ofNat 32 (busy.toNat + 2 * st.done.toNat + 4 * st.err.toNat + 16 * st.errcode.value)

/-- STATUS with DONE, ERR and ERRCODE cleared, as every command word issued leaves it first (R24 to R26). -/
def Status.cleared : Status := { done := false, err := false, errcode := .none }

/-- STATUS after a job has ended or an empty one was accepted: DONE = 1 (R24). -/
def Status.finished : Status := { done := true, err := false, errcode := .none }

/-- STATUS after a rejection: ERR = 1 with its code (R25, R26). -/
def Status.rejected (e : ErrCode) : Status := { done := false, err := true, errcode := e }

end Sys2Proof.Machine
end

