-- ==== Sys2Proof/Machine/Ops.lean ====
section
/-! DEFINITION. The named operations over memory, host variables, registers and the job; rejecting a
command (spec/60_exceptions.md R204), which is what this block has in place of taking an exception, and
what clears the error again (R206); the block's reset (spec/70_reset_and_hazards.md R230). -/

namespace Sys2Proof.Machine

/-! ### Finite maps as sorted lists -/

/-- The value at a key, if it has one. -/
def assocGet {α : Type} : List (Nat × α) → Nat → Option α
  | [], _ => none
  | (k, v) :: t, a => if a = k then some v else assocGet t a

/-- The map with the value at key a set to x, keys kept rising. -/
def assocPut {α : Type} : List (Nat × α) → Nat → α → List (Nat × α)
  | [], a, x => [(a, x)]
  | (k, v) :: t, a, x =>
    if a < k then (a, x) :: (k, v) :: t
    else if a = k then (a, x) :: t
    else (k, v) :: assocPut t a x

/-- The map without key a. -/
def assocErase {α : Type} : List (Nat × α) → Nat → List (Nat × α)
  | [], _ => []
  | (k, v) :: t, a => if a = k then assocErase t a else (k, v) :: assocErase t a

/-! ### Memory -/

/-- What a byte of memory that nothing has written reads as (log entry 3). -/
def unlistedByte : Byte := 0#8

/-- `MemRead(a, 1)` (spec/00_scope.md R9, spec/20_memory.md R58). -/
def Memory.read (m : Memory) (a : Nat) : Byte := (assocGet m a).getD unlistedByte

/-- `MemWrite(a, 1, b)` (R9, R58), in canonical form. -/
def Memory.write (m : Memory) (a : Nat) (b : Byte) : Memory :=
  if b = unlistedByte then assocErase m a else assocPut m a b

/-- The canonical form: addresses strictly rising, no entry equal to what an unlisted address reads as,
every address one of the memory space's (spec/20_memory.md R50). -/
abbrev Memory.wf (m : Memory) : Prop :=
  m.Pairwise (fun c d => c.1 < d.1) ∧ ∀ c ∈ m, c.2 ≠ unlistedByte ∧ c.1 < Config.memSize

/-! ### Sets of offsets -/

/-- The strictly rising list with i added (`job.written ∪ {i}`, spec/42_layout_packers.md R150). -/
def insertOffset (i : Nat) : List Nat → List Nat
  | [] => [i]
  | k :: t => if i < k then i :: k :: t else if i = k then k :: t else k :: insertOffset i t

/-- The offsets of the destination the engine has still to write (R150: "not yet in job.written"). -/
def Job.remaining (j : Job) : List Nat := (List.range j.len).filter (fun i => !j.written.contains i)

/-! ### Ranges of addresses -/

/-- The addresses base to base + size - 1 include a. -/
def inRange (base size a : Nat) : Bool := base ≤ a && a < base + size

/-- Two stretches of addresses share one. -/
def rangesMeet (a n b m : Nat) : Bool := n != 0 && m != 0 && a < b + m && b < a + n

/-- A region contains the address. -/
def regionHas (r : Region) (a : Nat) : Bool := inRange r.base r.size a

/-- The register window, where the platform maps it into the memory space (spec/20_memory.md R51). -/
def windowRegions (p : Params) : List Region :=
  match p.windowInMemory with
  | none => []
  | some b => [{ base := b, size := Config.regWindow }]

/-- A range of a job reaches one of the regions. -/
def meetsAny (rs : List Region) (a n : Nat) : Bool := rs.any (fun r => rangesMeet a n r.base r.size)

/-- One of the regions contains the address. -/
def hasAny (rs : List Region) (a : Nat) : Bool := rs.any (fun r => regionHas r a)

/-! ### Host variables -/

/-- Bit n of a host variable's value; bytes count from the one at the lowest address (spec/00_scope.md R9). Past the end
it is 0 (log entry 5). -/
def HostVal.bit : HostVal → Nat → Bool
  | .word w, n => w.getLsbD n
  | .bytes bs, n => (bs.getD (n / 8) 0#8).getLsbD (n % 8)

/-- Bit n of host variable x; a variable with no value reads as 0 (log entry 5). -/
def State.varBit (s : State) (x n : Nat) : Bool :=
  match assocGet s.host.vars x with
  | none => false
  | some v => v.bit n

/-- The state with host variable x set. -/
def State.setVar (s : State) (x : Nat) (v : HostVal) : State :=
  { s with host := { s.host with vars := assocPut s.host.vars x v } }

/-- The state in which the host's remaining statements are `rest`. -/
def State.setRest (s : State) (rest : List HostStmt) : State :=
  { s with host := { s.host with rest := rest } }

/-- The state with one byte of memory written. -/
def State.store (s : State) (a : Nat) (b : Byte) : State := { s with mem := s.mem.write a b }

/-! ### Whose turn it is (log entry 1) -/

/-- One host step fewer before the engine's next one. -/
def Sched.tick (d : Sched) : Sched := { d with burst := d.burst - 1 }

/-- The free values drawn anew. -/
def Sched.redraw (d : Sched) : Sched :=
  { burst := Config.hostBurst d.draws
    pick := Config.enginePick d.draws
    probe := Config.engineProbe d.draws
    draws := d.draws + 1 }

/-! ### Registers -/

/-- The offset of a register in the window (spec/10_state.md R21). -/
def regOffset : Reg → Fin 32
  | .cmd => 0x00
  | .status => 0x04
  | .width => 0x08
  | .height => 0x0C
  | .srcAddr => 0x10
  | .dstAddr => 0x14
  | .outLen => 0x18

/-- The register at an offset; the other offsets are reserved (R21, R33). -/
def regAt (off : Fin 32) : Option Reg :=
  match off.val with
  | 0x00 => some .cmd
  | 0x04 => some .status
  | 0x08 => some .width
  | 0x0C => some .height
  | 0x10 => some .srcAddr
  | 0x14 => some .dstAddr
  | 0x18 => some .outLen
  | _ => none

/-- What a 32-bit read of a register returns (R22 to R32); no read has a side effect (spec/20_memory.md R59). -/
def readReg (s : State) : Reg → Word
  | .cmd => 0#32
  | .status => statusWord s.busy s.status
  | .width => s.width.setWidth 32
  | .height => s.height.setWidth 32
  | .srcAddr => s.srcAddr
  | .dstAddr => s.dstAddr
  | .outLen => s.outLen

/-- What a 32-bit read at an offset returns; a reserved one reads 0 (R33). -/
def readOffset (s : State) (off : Fin 32) : Word :=
  match regAt off with
  | none => 0#32
  | some r => readReg s r

/-- A write of a register that only stores, while BUSY = 0: the read-only registers ignore it
(R27, R32), CMD stores nothing (R22). -/
def storeReg (s : State) (r : Reg) (v : Word) : State :=
  match r with
  | .cmd => s
  | .status => s
  | .width => { s with width := v.setWidth 16 }
  | .height => { s with height := v.setWidth 16 }
  | .srcAddr => { s with srcAddr := v }
  | .dstAddr => { s with dstAddr := v }
  | .outLen => s

/-! ### The command's outcomes -/

/-- `raise Error(code)` (spec/60_exceptions.md R204), after the clearing of `issue` (R150): OUT_LEN 0, ERR and
ERRCODE set, BUSY and DONE 0, nothing else changed. There is no return from it: the next command word
issued clears it (R206). -/
def State.reject (s : State) (e : ErrCode) : State :=
  { s with status := Status.rejected e, outLen := 0#32 }

/-- The engine has made its last write, or has none to make: BUSY 0, DONE 1 (spec/42_layout_packers.md R150). -/
def State.finish (s : State) : State := { s with status := Status.finished, job := none }

/-- Reset of the block (spec/70_reset_and_hazards.md R230, R231): the registers take their reset values and a job
is abandoned; memory keeps what it holds, and the host goes on. -/
def State.blockReset (s : State) : State :=
  { s with
    status := State.reset.status
    width := State.reset.width
    height := State.reset.height
    srcAddr := State.reset.srcAddr
    dstAddr := State.reset.dstAddr
    outLen := State.reset.outLen
    job := none }

end Sys2Proof.Machine
end

