-- ==== Sys2Proof/Machine/Operands.lean ====
section
/-! DEFINITION. The operands of a command, read implicitly from the registers (spec/30_encoding.md R82), the
length of its output (spec/42_layout_packers.md R151), and the checks made on them when it is issued
(spec/60_exceptions.md R202, R203; spec/20_memory.md R51 to R55, R59). -/

namespace Sys2Proof.Machine

/-- A command's operands (R82). -/
structure Operands where
  w   : Nat
  h   : Nat
  src : Nat
  dst : Nat
deriving DecidableEq, Repr

/-- The operands as the registers give them, each zero-extended (R82). -/
def operands (s : State) : Operands :=
  { w := s.width.toNat, h := s.height.toNat, src := s.srcAddr.toNat, dst := s.dstAddr.toNat }

/-- `SUBSAMPLED` (spec/42_layout_packers.md R152). -/
def subsampled : PixelFormat → Bool
  | .rgb24 => false
  | .xrgb32 => false
  | .yuv444 => false
  | .i420 => true
  | .nv12 => true
  | .yuyv => true
  | .uyvy => true
  | .p010 => true

/-- `LEN(W, H, fmt)` (R151). -/
def outputLen (w h : Nat) : PixelFormat → Nat
  | .rgb24 => 3 * (w * h)
  | .xrgb32 => 4 * (w * h)
  | .yuv444 => 3 * (w * h)
  | .i420 => w * h + 2 * ((w / 2) * (h / 2))
  | .nv12 => w * h + 2 * ((w / 2) * (h / 2))
  | .yuyv => 2 * (w * h)
  | .uyvy => 2 * (w * h)
  | .p010 => 2 * (w * h + 2 * ((w / 2) * (h / 2)))

/-- How many bytes the source range has (spec/20_memory.md R52). -/
def sourceLen (w h : Nat) : Nat := 3 * (w * h)

/-- The dimensions a format refuses: W or H odd, for a subsampled one (spec/60_exceptions.md R202). -/
def badDimensions (fmt : PixelFormat) (w h : Nat) : Bool :=
  subsampled fmt && (w % 2 == 1 || h % 2 == 1)

/-- The contract of a job on its ranges, which the block does not check and the model refuses a breach of
(spec/60_exceptions.md R203 (3), R208): R54, R55, R51 and R59 of spec/20_memory.md. -/
def contractBreach (p : Params) (src srcLen dst dstLen : Nat) : Option Refusal :=
  if Config.memSize < src + srcLen || Config.memSize < dst + dstLen then some .rangePastTop
  else if rangesMeet src srcLen dst dstLen then some .rangesOverlap
  else if meetsAny (windowRegions p) src srcLen || meetsAny (windowRegions p) dst dstLen then
    some .rangeMeetsRegisterWindow
  else if meetsAny p.sideEffects src srcLen || meetsAny p.sideEffects dst dstLen then
    some .rangeMeetsSideEffects
  else none

/-- The contract of a command with the operands o (R52, R53). -/
def Operands.breach (p : Params) (fmt : PixelFormat) (o : Operands) : Option Refusal :=
  contractBreach p o.src (sourceLen o.w o.h) o.dst (outputLen o.w o.h fmt)

/-- An address of the job's source range (R52). -/
def Job.inSource (j : Job) (a : Nat) : Bool := inRange j.src (sourceLen j.w j.h) a

/-- An address of the job's destination range (R53). -/
def Job.inDest (j : Job) (a : Nat) : Bool := inRange j.dst j.len a

/-- The job a command starts (spec/42_layout_packers.md R150, spec/10_state.md R35). -/
def Operands.job (o : Operands) (fmt : PixelFormat) : Job :=
  { fmt := fmt, w := o.w, h := o.h, src := o.src, dst := o.dst
    len := outputLen o.w o.h fmt, written := [], stuck := false }

/-- The state in which a command is accepted (R150): OUT_LEN is the length, and the job is active, or at once
finished when it has no byte to write. -/
def State.accept (s : State) (fmt : PixelFormat) (o : Operands) : State :=
  let s := { s with status := Status.cleared, outLen := BitVec.ofNat 32 (outputLen o.w o.h fmt) }
  if outputLen o.w o.h fmt = 0 then s.finish
  else { s with job := some (o.job fmt), sched := s.sched.redraw }

/-- `issue(c)` for a c that names a format (R150), and a CMD write while BUSY = 1 (spec/10_state.md R34). -/
def issue (fmt : PixelFormat) (s : State) : Host.Outcome State Fault Refusal :=
  let o := operands s
  if s.busy then .next s
  else if badDimensions fmt o.w o.h then .next (s.reject .invalidDimensions)
  else match o.breach s.params fmt with
    | some r => .refused r
    | none => .next (s.accept fmt o)

/-- `issue(c)` for a c that names no format (R150, spec/60_exceptions.md R201), and a CMD write while BUSY = 1. -/
def issueUnknown (s : State) : Host.Outcome State Fault Refusal :=
  if s.busy then .next s else .next (s.reject .invalidFormatName)

end Sys2Proof.Machine
end

