-- ==== Sys2Proof/Machine/ColorTransform.lean ====
section
/-! DEFINITION. The Color Transform (spec/40_color_transform.md): fixed-point multiply-accumulate, full-range
clip, limited-range scaling with a truncating division, limited-range clamp. -/

namespace Sys2Proof.Machine

/-- `clamp(v, lo, hi)` (spec/00_scope.md R8). -/
def clamp (v lo hi : Int) : Int := min (max v lo) hi

/-- The accumulator SY (R103). -/
def accY (r g b : Byte) : Int := Config.kYR * r.toNat + Config.kYG * g.toNat + Config.kYB * b.toNat

/-- The accumulator SU (R103). -/
def accU (r g b : Byte) : Int :=
  Config.kUR * r.toNat + Config.kUG * g.toNat + Config.kUB * b.toNat + Config.bias

/-- The accumulator SV (R103). -/
def accV (r g b : Byte) : Int :=
  Config.kVR * r.toNat + Config.kVG * g.toNat + Config.kVB * b.toNat + Config.bias

/-- A channel's accumulator (R103). -/
def acc : Channel → Byte → Byte → Byte → Int
  | .y => accY
  | .u => accU
  | .v => accV

/-- The full-range clip (R104). -/
def fullClip (s : Int) : Int := clamp s 0 Config.fs

/-- A channel's limited-range span (R101, R105). -/
def span : Channel → Int
  | .y => Config.spanY
  | .u => Config.spanC
  | .v => Config.spanC

/-- A channel's limited-range top (R106). -/
def limitTop : Channel → Int
  | .y => 235
  | .u => 240
  | .v => 240

/-- A tie point of the channel: the exact value before truncation is an integer (R110). -/
def isTiePoint (ch : Channel) (r g b : Byte) : Bool :=
  fullClip (acc ch r g b) * span ch % Config.fs == 0

/-- `tie(ch, r, g, b)` (R107): 1 where `CT_TIE_DOWN` holds, which it may only at a tie point (R110). -/
def tie (ties : List TiePoint) (ch : Channel) (r g b : Byte) : Int :=
  if isTiePoint ch r g b && ties.contains { ch := ch, r := r, g := g, b := b } then 1 else 0

/-- Yq, Uq or Vq: the scaled value, truncated, less the tie (R105, R107). -/
def quantised (ties : List TiePoint) (ch : Channel) (r g b : Byte) : Int :=
  fullClip (acc ch r g b) * span ch / Config.fs + 16 - tie ties ch r g b

/-- The channel's limited-range value as an integer (R106, R107). -/
def ctValue (ties : List TiePoint) (ch : Channel) (r g b : Byte) : Int :=
  clamp (quantised ties ch r g b) 16 (limitTop ch)

/-- The channel's 8-bit sample: `CT(r, g, b)` channel by channel (R107). -/
def ct (ties : List TiePoint) (ch : Channel) (r g b : Byte) : Byte :=
  BitVec.ofInt 8 (ctValue ties ch r g b)

end Sys2Proof.Machine
end

