-- ==== Sys2Proof/Machine/Subsampler.lean ====
section
/-! DEFINITION. The frame in memory (spec/10_state.md R40), its full-resolution planes
(spec/40_color_transform.md R109), and the Chroma Subsampler (spec/41_chroma_subsampler.md R131, R132).
Frames and planes are not state (spec/10_state.md R39): they are functions of memory. -/

namespace Sys2Proof.Machine

/-- A frame: where it lies in which memory, its size, and the transform's tie parameter. -/
structure Frame where
  mem  : Memory
  src  : Nat
  w    : Nat
  h    : Nat
  ties : List TiePoint
deriving DecidableEq, Repr

/-- The frame a job reads (R40). -/
def State.frame (s : State) (j : Job) : Frame :=
  { mem := s.mem, src := j.src, w := j.w, h := j.h, ties := s.params.tieDown }

/-- The address of component c (0 red, 1 green, 2 blue) of the pixel at column x, row y (R40). -/
def Frame.addr (f : Frame) (x y c : Nat) : Nat := f.src + 3 * (y * f.w + x) + c

/-- R(x,y) (R40). -/
def Frame.red (f : Frame) (x y : Nat) : Byte := f.mem.read (f.addr x y 0)

/-- G(x,y) (R40). -/
def Frame.green (f : Frame) (x y : Nat) : Byte := f.mem.read (f.addr x y 1)

/-- B(x,y) (R40). -/
def Frame.blue (f : Frame) (x y : Nat) : Byte := f.mem.read (f.addr x y 2)

/-- Yp[x,y], Up[x,y] or Vp[x,y] (spec/40_color_transform.md R109). -/
def Frame.plane (f : Frame) (ch : Channel) (x y : Nat) : Byte :=
  ct f.ties ch (f.red x y) (f.green x y) (f.blue x y)

/-- The truncated average of four samples (spec/41_chroma_subsampler.md R131). -/
def average4 (a b c d : Byte) : Byte := BitVec.ofNat 8 ((a.toNat + b.toNat + c.toNat + d.toNat) / 4)

/-- U420[cx,cy] or V420[cx,cy] (R131). -/
def Frame.chroma420 (f : Frame) (ch : Channel) (cx cy : Nat) : Byte :=
  average4 (f.plane ch (2 * cx) (2 * cy)) (f.plane ch (2 * cx + 1) (2 * cy))
    (f.plane ch (2 * cx) (2 * cy + 1)) (f.plane ch (2 * cx + 1) (2 * cy + 1))

/-- U422[gx,y] or V422[gx,y] (R132). -/
def Frame.chroma422 (f : Frame) (ch : Channel) (gx y : Nat) : Byte := f.plane ch (2 * gx) y

end Sys2Proof.Machine
end

