-- ==== Sys2Proof/Machine/Packers.lean ====
section
/-! DEFINITION. The Layout Packers (spec/42_layout_packers.md R153 to R161): for each format, which sample each
byte of the output holds (`Frame.siteAt`) and the byte's value (`Frame.out`). The spec writes each layout as
assignments to Out[o] for the pixels of the frame; the definitions here give the same layout read from the
offset, so that the engine can write the offsets in any order (R163). -/

namespace Sys2Proof.Machine

/-- A sample an output byte is made of. -/
inductive Sample where
  /-- R(x,y), G(x,y), B(x,y) -/
  | red   (x y : Nat)
  | green (x y : Nat)
  | blue  (x y : Nat)
  /-- XRGB32's fourth byte of the pixel (x,y), always 0x00 (R155) -/
  | pad   (x y : Nat)
  /-- Yp, Up or Vp at (x,y) -/
  | full  (ch : Channel) (x y : Nat)
  /-- U420 or V420 at (cx,cy) -/
  | c420  (ch : Channel) (cx cy : Nat)
  /-- U422 or V422 at (gx,y) -/
  | c422  (ch : Channel) (gx y : Nat)
deriving DecidableEq, Repr

/-- What an output byte holds: a whole sample, or the low or high byte of its 10-bit expansion (R153, R161). -/
inductive Site where
  | whole (s : Sample)
  | low10 (s : Sample)
  | high10 (s : Sample)
deriving DecidableEq, Repr

/-- `P10(v)` (R153). -/
def p10 (v : Byte) : Half := BitVec.ofNat 16 (v.toNat * 1023 / 255) <<< 6

/-- The value of a sample of the frame. -/
def Frame.sample (f : Frame) : Sample → Byte
  | .red x y => f.red x y
  | .green x y => f.green x y
  | .blue x y => f.blue x y
  | .pad _ _ => 0x00#8
  | .full ch x y => f.plane ch x y
  | .c420 ch cx cy => f.chroma420 ch cx cy
  | .c422 ch gx y => f.chroma422 ch gx y

/-- The value of an output byte; a P010 sample is stored low byte first (R161, spec/20_memory.md R56 (a)). -/
def Frame.siteByte (f : Frame) : Site → Byte
  | .whole s => f.sample s
  | .low10 s => (p10 (f.sample s)).setWidth 8
  | .high10 s => (p10 (f.sample s) >>> 8).setWidth 8

/-- Output pixel p of a bottom-up format: its column and its row of the frame (R154: output row j is frame
row H - 1 - j). -/
def bottomUp (w h p : Nat) : Nat × Nat := (p % w, h - 1 - p / w)

/-- ENCODE.RGB24: B, G, R of each pixel, rows bottom-up (R154). -/
def siteRgb24 (w h i : Nat) : Site :=
  let p := bottomUp w h (i / 3)
  match i % 3 with
  | 0 => .whole (.blue p.1 p.2)
  | 1 => .whole (.green p.1 p.2)
  | _ => .whole (.red p.1 p.2)

/-- ENCODE.XRGB32: B, G, R, 0 of each pixel, rows bottom-up (R155). -/
def siteXrgb32 (w h i : Nat) : Site :=
  let p := bottomUp w h (i / 4)
  match i % 4 with
  | 0 => .whole (.blue p.1 p.2)
  | 1 => .whole (.green p.1 p.2)
  | 2 => .whole (.red p.1 p.2)
  | _ => .whole (.pad p.1 p.2)

/-- Sample k of a plane of full resolution, rows top-down. -/
def planeAt (ch : Channel) (w k : Nat) : Sample := .full ch (k % w) (k / w)

/-- Sample k of a 4:2:0 plane, rows top-down. -/
def planeAt420 (ch : Channel) (w k : Nat) : Sample := .c420 ch (k % (w / 2)) (k / (w / 2))

/-- ENCODE.YUV444: the Y, U and V planes (R156). -/
def siteYuv444 (w h i : Nat) : Site :=
  if i < w * h then .whole (planeAt .y w i)
  else if i < 2 * (w * h) then .whole (planeAt .u w (i - w * h))
  else .whole (planeAt .v w (i - 2 * (w * h)))

/-- ENCODE.I420: the Y plane, then the U420 and the V420 plane (R157). -/
def siteI420 (w h i : Nat) : Site :=
  if i < w * h then .whole (planeAt .y w i)
  else if i < w * h + (w / 2) * (h / 2) then .whole (planeAt420 .u w (i - w * h))
  else .whole (planeAt420 .v w (i - (w * h + (w / 2) * (h / 2))))

/-- ENCODE.NV12: the Y plane, then U420 and V420 interleaved (R158). -/
def siteNv12 (w h i : Nat) : Site :=
  if i < w * h then .whole (planeAt .y w i)
  else if (i - w * h) % 2 = 0 then .whole (planeAt420 .u w ((i - w * h) / 2))
  else .whole (planeAt420 .v w ((i - w * h) / 2))

/-- ENCODE.YUYV: Y0, U, Y1, V of each pair of pixels (R159). -/
def siteYuyv (w _h i : Nat) : Site :=
  let y := i / (2 * w)
  let gx := i % (2 * w) / 4
  match i % (2 * w) % 4 with
  | 0 => .whole (.full .y (2 * gx) y)
  | 1 => .whole (.c422 .u gx y)
  | 2 => .whole (.full .y (2 * gx + 1) y)
  | _ => .whole (.c422 .v gx y)

/-- ENCODE.UYVY: U, Y0, V, Y1 of each pair of pixels (R160). -/
def siteUyvy (w _h i : Nat) : Site :=
  let y := i / (2 * w)
  let gx := i % (2 * w) / 4
  match i % (2 * w) % 4 with
  | 0 => .whole (.c422 .u gx y)
  | 1 => .whole (.full .y (2 * gx) y)
  | 2 => .whole (.c422 .v gx y)
  | _ => .whole (.full .y (2 * gx + 1) y)

/-- Sample k of ENCODE.P010: the Y plane, then U420 and V420 interleaved (R161). -/
def sampleP010 (w h k : Nat) : Sample :=
  if k < w * h then planeAt .y w k
  else if (k - w * h) % 2 = 0 then planeAt420 .u w ((k - w * h) / 2)
  else planeAt420 .v w ((k - w * h) / 2)

/-- ENCODE.P010: two bytes of each expanded sample, the low one first (R161). -/
def siteP010 (w h i : Nat) : Site :=
  if i % 2 = 0 then .low10 (sampleP010 w h (i / 2)) else .high10 (sampleP010 w h (i / 2))

/-- What byte i of the output of a format holds. -/
def siteOf : PixelFormat → Nat → Nat → Nat → Site
  | .rgb24 => siteRgb24
  | .xrgb32 => siteXrgb32
  | .yuv444 => siteYuv444
  | .i420 => siteI420
  | .nv12 => siteNv12
  | .yuyv => siteYuyv
  | .uyvy => siteUyvy
  | .p010 => siteP010

/-- Out[i] of the frame in a format (R154 to R161). -/
def Frame.out (f : Frame) (fmt : PixelFormat) (i : Nat) : Byte := f.siteByte (siteOf fmt f.w f.h i)

/-- The pixels a sample depends on (R131: the four of a block; R132: the even one of a pair). -/
def Sample.pixels : Sample → List (Nat × Nat)
  | .red x y => [(x, y)]
  | .green x y => [(x, y)]
  | .blue x y => [(x, y)]
  | .pad _ _ => []
  | .full _ x y => [(x, y)]
  | .c420 _ cx cy =>
    [(2 * cx, 2 * cy), (2 * cx + 1, 2 * cy), (2 * cx, 2 * cy + 1), (2 * cx + 1, 2 * cy + 1)]
  | .c422 _ gx y => [(2 * gx, y)]

/-- The sample an output byte is made of. -/
def Site.sample : Site → Sample
  | .whole s => s
  | .low10 s => s
  | .high10 s => s

/-- The addresses of the three components of a pixel (R40). -/
def Frame.pixelReads (f : Frame) (x y : Nat) : List Nat := [f.addr x y 0, f.addr x y 1, f.addr x y 2]

/-- The source addresses whose bytes a sample depends on: one for a component of a pixel, none for XRGB32's fourth byte,
the three of each pixel for a sample of the Color Transform. -/
def Frame.sampleReads (f : Frame) : Sample → List Nat
  | .red x y => [f.addr x y 0]
  | .green x y => [f.addr x y 1]
  | .blue x y => [f.addr x y 2]
  | .pad _ _ => []
  | .full _ x y => f.pixelReads x y
  | .c420 _ cx cy =>
    f.pixelReads (2 * cx) (2 * cy) ++ f.pixelReads (2 * cx + 1) (2 * cy) ++
      f.pixelReads (2 * cx) (2 * cy + 1) ++ f.pixelReads (2 * cx + 1) (2 * cy + 1)
  | .c422 _ gx y => f.pixelReads (2 * gx) y

/-- The source addresses the engine reads in the step that writes an output byte, beside the drawn one. DESIGN CHOICE (log
entry 2): the spec leaves open which source bytes are read before a byte is written (spec/20_memory.md R61, R63); the
model reads those the byte depends on, and no other component of an RGB24 or XRGB32 byte's pixel. -/
def Frame.siteReads (f : Frame) (t : Site) : List Nat := f.sampleReads t.sample

end Sys2Proof.Machine
end

