-- ==== Sys2Proof/Machine/Engine.lean ====
section
/-! DEFINITION. The engine agent (spec/00_scope.md R14): when it moves, and its step, which writes one byte of the
destination (spec/42_layout_packers.md R150, spec/20_memory.md R60 to R63). -/

namespace Sys2Proof.Machine

/-- The job whose engine moves next, if the engine does: there is one, it is not stuck (R60), and the host has no
statement left or has used up its steps (log entry 1). -/
def State.engineTurn (s : State) : Option Job :=
  match s.job with
  | none => none
  | some j => if j.stuck || (!s.host.rest.isEmpty && s.sched.burst != 0) then none else some j

/-- The offset the engine writes next, if one is left: the drawn one of those not yet written (R61). -/
def Job.nextOffset (j : Job) (pick : Nat) : Option Nat := j.remaining[pick % j.remaining.length]?

/-- The source address the engine reads besides, if it does: none, or any of the source range, as drawn (R63). -/
def State.extraRead (s : State) (j : Job) : List Nat :=
  match s.sched.probe with
  | 0 => []
  | k + 1 => [j.src + k % sourceLen j.w j.h]

/-- The addresses the engine's step for offset i asks the platform for: the byte it writes, the source bytes that
byte depends on, and at most one more source byte, drawn (R62, R63). DESIGN CHOICE (log entry 2): the spec leaves open
which source bytes are read before a byte is written. -/
def State.requests (s : State) (j : Job) (i : Nat) : List Nat :=
  (j.dst + i) :: (s.extraRead j ++ (s.frame j).siteReads (siteOf j.fmt j.w j.h i))

/-- The platform admits every one of the requests (R60). DESIGN CHOICE (log entry 4): whether it admits one depends on
the address alone, not on whether it is a read or a write, nor on the time. -/
def State.admits (s : State) (j : Job) (i : Nat) : Bool :=
  (s.requests j i).all (fun a => !hasAny s.params.notAdmitted a)

/-- The engine's write of offset i: the byte is stored, the offset is written, and the step of the last write
ends the job (R62, spec/10_state.md R35). -/
def State.writeOut (s : State) (j : Job) (i : Nat) : State :=
  let j' := { j with written := insertOffset i j.written }
  let s' := { s.store (j.dst + i) ((s.frame j).out j.fmt i) with sched := s.sched.redraw }
  if j'.remaining.isEmpty then s'.finish else { s' with job := some j' }

/-- The engine's step. A request that is not admitted leaves it with no step (R60). -/
def engineStep (j : Job) (s : State) : Host.Outcome State Fault Refusal :=
  match j.nextOffset s.sched.pick with
  | none => .next s.finish
  | some i =>
    if s.admits j i then .next (s.writeOut j i)
    else .next { s with job := some { j with stuck := true }, sched := s.sched.redraw }

end Sys2Proof.Machine
end

