-- ==== Sys2Proof/Machine/Encode.lean ====
section
/-! DEFINITION. The meanings of the eight commands (spec/42_layout_packers.md R154 to R161). Executing a command is
issuing it (R150): one step in which it is rejected, refused, or accepted as a job. The bytes of an accepted
job are then written by the engine (Machine/Engine.lean) as `Frame.out` gives them. -/

namespace Sys2Proof.Machine

/-- ENCODE.RGB24 (R154): no check of the dimensions' parity; the engine writes `siteRgb24`. -/
def execEncodeRgb24 (s : State) : Host.Outcome State Fault Refusal := issue .rgb24 s

/-- ENCODE.XRGB32 (R155): no check of the dimensions' parity; the engine writes `siteXrgb32`. -/
def execEncodeXrgb32 (s : State) : Host.Outcome State Fault Refusal := issue .xrgb32 s

/-- ENCODE.YUV444 (R156): no check of the dimensions' parity; the engine writes `siteYuv444`. -/
def execEncodeYuv444 (s : State) : Host.Outcome State Fault Refusal := issue .yuv444 s

/-- ENCODE.I420, also spelled ENCODE.YUV420 (R157): W and H even; the engine writes `siteI420`. -/
def execEncodeI420 (s : State) : Host.Outcome State Fault Refusal := issue .i420 s

/-- ENCODE.NV12 (R158): W and H even; the engine writes `siteNv12`. -/
def execEncodeNv12 (s : State) : Host.Outcome State Fault Refusal := issue .nv12 s

/-- ENCODE.YUYV (R159): W and H even; the engine writes `siteYuyv`. -/
def execEncodeYuyv (s : State) : Host.Outcome State Fault Refusal := issue .yuyv s

/-- ENCODE.UYVY (R160): W and H even; the engine writes `siteUyvy`. -/
def execEncodeUyvy (s : State) : Host.Outcome State Fault Refusal := issue .uyvy s

/-- ENCODE.P010 (R161): W and H even; the engine writes `siteP010`. -/
def execEncodeP010 (s : State) : Host.Outcome State Fault Refusal := issue .p010 s

end Sys2Proof.Machine
end

