-- ==== Sys2Proof/Machine/Dispatch.lean ====
section
/-! DEFINITION. Which meaning each command has: one arm per constructor of Instr. -/

namespace Sys2Proof.Machine

/-- Executing a command word that names a format (spec/42_layout_packers.md R150). -/
def exec (i : Instr) (s : State) : Host.Outcome State Fault Refusal :=
  match i with
  | .encodeRgb24 => Sys2Proof.Machine.execEncodeRgb24 s
  | .encodeXrgb32 => Sys2Proof.Machine.execEncodeXrgb32 s
  | .encodeYuv444 => Sys2Proof.Machine.execEncodeYuv444 s
  | .encodeI420 => Sys2Proof.Machine.execEncodeI420 s
  | .encodeNv12 => Sys2Proof.Machine.execEncodeNv12 s
  | .encodeYuyv => Sys2Proof.Machine.execEncodeYuyv s
  | .encodeUyvy => Sys2Proof.Machine.execEncodeUyvy s
  | .encodeP010 => Sys2Proof.Machine.execEncodeP010 s

end Sys2Proof.Machine
end

