-- ==== Sys2Proof/Machine/HostPort.lean ====
section
/-! DEFINITION. The host agent (spec/00_scope.md R14): its register accesses (spec/10_state.md R21 to R34), its memory
accesses (spec/20_memory.md R64 to R67, spec/70_reset_and_hazards.md R236, R237), its own control flow
(spec/30_encoding.md R87) and the reset of the block (R230). Each bus transaction is one step. -/

namespace Sys2Proof.Machine

/-- A write of c to CMD (R22): the command word is decoded and issued, or ignored while BUSY = 1. -/
def cmdWrite (s : State) (c : Word) : Host.Outcome State Fault Refusal :=
  match decodeWord c with
  | .ok i => exec i s
  | .error _ => issueUnknown s

/-- An aligned 32-bit write in the register window (R21 to R34). -/
def regWrite (s : State) (off : Fin 32) (v : Word) : Host.Outcome State Fault Refusal :=
  match regAt off with
  | some .cmd => cmdWrite s v
  | some r => .next (if s.busy then s else storeReg s r v)
  | none => .next s

/-- A write access of any shape (R57): only an aligned 32-bit one has a meaning. -/
def busWrite (s : State) (off : Fin 32) (lanes : List Byte) : Host.Outcome State Fault Refusal :=
  match lanes with
  | [b0, b1, b2, b3] =>
    if aligned32 off 4 then regWrite s off (wordOfLanes b0 b1 b2 b3) else .refused .registerAccessShape
  | _ => .refused .registerAccessShape

/-- A read access of any shape into host variable x (R57). -/
def busRead (s : State) (off : Fin 32) (width x : Nat) : Host.Outcome State Fault Refusal :=
  if aligned32 off width then .next (s.setVar x (.bytes (bytesOfWord (readOffset s off))))
  else .refused .registerAccessShape

/-- Why a host access to the byte at a cannot be made, if it cannot: outside the memory space (R50), in the register
window as a one-byte access (R57, spec/60_exceptions.md R208 (d)), not admitted by the platform (R60), or a device (R59).
DESIGN CHOICE (log entry 7): where more than one holds, the first of this order is the stop. -/
def hostAccessStop (s : State) (a : Nat) : Option (Host.Outcome State Fault Refusal) :=
  if Config.memSize ≤ a then some (.fault .hostAddressOutsideMemory)
  else if hasAny (windowRegions s.params) a then some (.refused .registerAccessShape)
  else if hasAny s.params.notAdmitted a then some (.fault .hostAccessNotAdmitted)
  else if hasAny s.params.sideEffects a then some (.refused .hostAccessHasSideEffects)
  else none

/-- The address is in a range of the active job (R52, R53). -/
def State.inJob (s : State) (a : Nat) : Bool :=
  match s.job with
  | none => false
  | some j => j.inSource a || j.inDest a

/-- A host write of one byte of memory, refused in a range of the active job (spec/70_reset_and_hazards.md R236, R237).
DESIGN CHOICE (log entry 7): this refusal, which spec/60_exceptions.md R208 (e) asks for, comes before the access's other
stops. -/
def hostStore (s : State) (a : Nat) (b : Byte) : Host.Outcome State Fault Refusal :=
  if s.inJob a then .refused .hostWriteDuringJob
  else match hostAccessStop s a with
    | some stop => stop
    | none => .next (s.store a b)

/-- A host read of one byte of memory, after which the host goes on with what `k` makes of it. In the destination
range of an active job the byte is the old one or Out[i], as the engine has written it yet or not (R64). -/
def hostLoad (s : State) (a : Nat) (k : Byte → State) : Host.Outcome State Fault Refusal :=
  match hostAccessStop s a with
  | some stop => stop
  | none => .next (k (s.mem.read a))

/-- The statements after the label l (spec/30_encoding.md R87: it "names the next statement"). DESIGN CHOICE (log entry 9):
R87 does not say what a label names that no statement follows; here a jump to it ends the program, with nothing left to
run. Of a label defined twice the first counts. -/
def afterLabel (l : Nat) : List HostStmt → Option (List HostStmt)
  | [] => none
  | .label k :: t => if k = l then some t else afterLabel l t
  | _ :: t => afterLabel l t

/-- The meaning of a host statement in the state s, whose host has `rest` after it (R87). -/
def runStmt (s : State) (rest : List HostStmt) : HostStmt → Host.Outcome State Fault Refusal
  | .wr r v => regWrite s (regOffset r) v
  | .rd r x => .next (s.setVar x (.word (readReg s r)))
  | .busWrite off lanes => busWrite s off lanes
  | .busRead off width x => busRead s off width x
  | .mw _ [] => .next s
  | .mw a (b :: bs) => hostStore (if bs.isEmpty then s else s.setRest (.mw (a + 1) bs :: rest)) a b
  | .mr _ 0 x got => .next (s.setVar x (.bytes got))
  | .mr a (n + 1) x got =>
    hostLoad s a (fun b =>
      if n = 0 then s.setVar x (.bytes (got ++ [b]))
      else s.setRest (.mr (a + 1) n x (got ++ [b]) :: rest))
  | .label _ => .next s
  | .ifGoto x bit v l =>
    if s.varBit x bit = v then
      match afterLabel l s.host.prog with
      | some t => .next (s.setRest t)
      | none => .refused .undefinedLabel
    else .next s
  | .reset => .next s.blockReset

/-- The host moves past the statement it runs and has one step fewer before the engine's next one. -/
def State.advance (s : State) (rest : List HostStmt) : State :=
  { s.setRest rest with sched := s.sched.tick }

/-- The host's step: its next statement; with none left it does nothing (log entry 6). -/
def hostStep (s : State) : Host.Outcome State Fault Refusal :=
  match s.host.rest with
  | [] => .next s
  | st :: rest => runStmt (s.advance rest) rest st

end Sys2Proof.Machine
end

