-- ==== Sys2Proof/Machine/Step.lean ====
section
/-! DEFINITION. One step of the machine: the engine's or the host's (spec/00_scope.md R14). -/

namespace Sys2Proof.Machine

/-- The machine's step. -/
def step (s : State) : Host.Outcome State Fault Refusal :=
  match s.engineTurn with
  | some j => engineStep j s
  | none => hostStep s

/-- The state whose very next step is the host's write to CMD of the word the host numbers w, before whatever the
host had left to do. The block fetches no instruction (spec/10_state.md R37): a command word comes from the
host's program (log entry 6). The host's turn is one step longer, which the step uses up. -/
def State.withFetchWord (s : State) (nbits w : Nat) : State :=
  { s with
    host := { s.host with rest := .wr .cmd (tableWord nbits w) :: s.host.rest }
    sched := { s.sched with burst := s.sched.burst + 1 } }

end Sys2Proof.Machine
end

