-- ==== Sys2Proof/Machine/Assembler.lean ====
section
/-! DEFINITION. Host programs as written: the pseudo-instructions' expansions and the assembler
(spec/30_encoding.md R85, R87, R88), and the bus transactions of a statement (R87). -/

namespace Sys2Proof.Machine

/-- A 32-bit immediate; one above 0xFFFFFFFF is refused (R87). -/
def imm32 (n : Nat) : Option Word := if immWf n then some (BitVec.ofNat 32 n) else none

/-- The label a line names or jumps to, or 0. -/
def labelNo : AsmStmt → Nat
  | .label l => l
  | .ifGoto _ _ _ l => l
  | _ => 0

/-- A label greater than every one the program names. -/
def freshLabel (p : List AsmStmt) : Nat := (p.map labelNo).foldr max 0 + 1

/-- `WAIT -> x` with the fresh label l (R88). -/
def waitLoop (x l : Nat) : List HostStmt := [.label l, .rd .status x, .ifGoto x 0 true l]

/-- The expansion of one line, with `l` the label a `WAIT` takes (R88); none for an immediate that does not fit. The
immediates bound by 0xFFFFFFFF are those of `WR` and `SETUP` and the address of an `MW` or `MR` (log entry 17). DESIGN
CHOICE (log entry 18): R87 does not say whether `MR`'s count and the bit number of `IF` are immediates too; they are not
bound here. -/
def expandStmt (l : Nat) : AsmStmt → Option (List HostStmt)
  | .wr r n => (imm32 n).map (fun v => [.wr r v])
  | .rd r x => some [.rd r x]
  | .mw a bs => if immWf a then some [.mw a bs] else none
  | .mr a n x => if immWf a then some [.mr a n x []] else none
  | .label k => some [.label k]
  | .ifGoto x bit v k => some [.ifGoto x bit v k]
  | .encode i => some [.wr .cmd (encodeWord i)]
  | .encodeYuv420 => some [.wr .cmd (encodeWord .encodeI420)]
  | .setup w h src dst =>
    match imm32 w, imm32 h, imm32 src, imm32 dst with
    | some w, some h, some src, some dst =>
      some [.wr .width w, .wr .height h, .wr .srcAddr src, .wr .dstAddr dst]
    | _, _, _, _ => none
  | .wait x => some (waitLoop x l)

/-- The lines of a program expanded one after the other, each `WAIT` with a label of its own. -/
def assembleFrom (l : Nat) : List AsmStmt → Option (List HostStmt)
  | [] => some []
  | st :: t =>
    match expandStmt l st, assembleFrom (l + 1) t with
    | some a, some b => some (a ++ b)
    | _, _ => none

/-- The assembled program (R87, R88); none for a program with a syntax error. -/
def assemble (p : List AsmStmt) : Option (List HostStmt) := assembleFrom (freshLabel p) p

/-- The state in which the host starts the program p (log entry 6: it is loaded from outside). -/
def State.loadProgram (s : State) (p : List HostStmt) : State :=
  { s with host := { s.host with prog := p, rest := p } }

/-- The bus transactions of a statement, in order (R87, third column). -/
def busOf (p : Params) : HostStmt → List BusTxn
  | .wr r v => [.regWrite (p.regBase + (regOffset r).val) (bytesOfWord v)]
  | .rd r _ => [.regRead (p.regBase + (regOffset r).val) 4]
  | .busWrite off lanes => [.regWrite (p.regBase + off.val) lanes]
  | .busRead off width _ => [.regRead (p.regBase + off.val) width]
  | .mw a bs => (List.range bs.length).map (fun k => .memWrite (a + k) (bs.getD k 0#8))
  | .mr a n _ _ => (List.range n).map (fun k => .memRead (a + k))
  | .label _ => []
  | .ifGoto _ _ _ _ => []
  | .reset => []

end Sys2Proof.Machine
end

