-- ==== Sys2Proof/Safety.lean ====
section
/-! DEFINITION. The terms claims are stated in: the invariant of the machine, and the conditions under which a
command or an engine step has its effect. -/

namespace Sys2Proof.Machine

/-- What holds of an active job in every state the machine can be in: it was accepted (spec/42_layout_packers.md R150,
spec/20_memory.md R51 to R55, R59), the registers it read have not changed (spec/10_state.md R34, R35), STATUS and
OUT_LEN are those of a running job (R23 to R25, R32), `written` holds some but not all of the offsets 0 to LEN - 1
(R35), and each written offset's byte of memory is the output byte (R62). -/
structure JobInv (s : State) (j : Job) : Prop where
  width       : s.width.toNat = j.w
  height      : s.height.toNat = j.h
  srcAddr     : s.srcAddr.toNat = j.src
  dstAddr     : s.dstAddr.toNat = j.dst
  len         : j.len = outputLen j.w j.h j.fmt
  outLen      : s.outLen.toNat = j.len
  dimensions  : badDimensions j.fmt j.w j.h = false
  contract    : contractBreach s.params j.src (sourceLen j.w j.h) j.dst j.len = none
  status      : s.status = Status.cleared
  rising      : j.written.Pairwise (· < ·)
  inside      : ∀ i ∈ j.written, i < j.len
  unfinished  : j.remaining ≠ []
  bytes       : ∀ i ∈ j.written, s.mem.read (j.dst + i) = (s.frame j).out j.fmt i

/-- The invariant: memory is in its canonical form; ERRCODE is not 0 exactly when ERR = 1 (R26); ERR and DONE are
never both 1 (R25); an active job satisfies `JobInv`. -/
structure Inv (s : State) : Prop where
  mem     : Memory.wf s.mem
  errcode : s.status.errcode ≠ .none ↔ s.status.err = true
  oneOf   : ¬ (s.status.done = true ∧ s.status.err = true)
  job     : ∀ j, s.job = some j → JobInv s j

/-- The command is issued, not ignored, and its dimensions and ranges are what the spec asks for: then it is accepted
(spec/42_layout_packers.md R150). -/
structure Ready (s : State) (fmt : PixelFormat) : Prop where
  idle       : s.job = none
  dimensions : subsampled fmt = true → s.width.toNat % 2 = 0 ∧ s.height.toNat % 2 = 0
  contract   : (operands s).breach s.params fmt = none

/-- The platform admits every request to the job's ranges (spec/20_memory.md R60). -/
abbrev AllAdmitted (s : State) (j : Job) : Prop :=
  ∀ a, j.inSource a = true ∨ j.inDest a = true → hasAny s.params.notAdmitted a = false

/-- Two memories hold the same bytes in the source range (spec/20_memory.md R52). -/
abbrev SameSource (j : Job) (m m' : Memory) : Prop := ∀ a, j.inSource a = true → m.read a = m'.read a

end Sys2Proof.Machine
end

