-- ==== Sys2Proof/Certificates/Slice0/Obligations.lean ====
section
/-! DEFINITION. The statements for the provers, in the order of the spec's rules: reset and registers, command words,
commands, colour transform, subsampler, packers, engine, host, whole machine. -/

open Sys2Proof Sys2Proof.Machine

/-! ### Reset and registers -/

/-- R230: on reset every register of the window reads the value of R21, and no job is active. -/
def Obligations.ResetRegisterValues : Prop :=
  readOffset State.reset 0x00 = 0x00000000#32 ∧
  readOffset State.reset 0x04 = 0x00000000#32 ∧
  readOffset State.reset 0x08 = 0x00000780#32 ∧
  readOffset State.reset 0x0C = 0x00000438#32 ∧
  readOffset State.reset 0x10 = 0x00000000#32 ∧
  readOffset State.reset 0x14 = 0x00000000#32 ∧
  readOffset State.reset 0x18 = 0x00000000#32 ∧
  readOffset State.reset 0x1C = 0x00000000#32 ∧
  State.reset.status = { done := false, err := false, errcode := .none } ∧
  State.reset.job = none

/-- R230, R232: a reset of the block, when the host's next statement is one, gives every register its reset value and
abandons a job; memory, the parameters and the host's variables stay (R231: "Reset does not change memory
otherwise"). -/
def Obligations.BlockResetAbandonsJob : Prop :=
  ∀ (s : State) (rest : List HostStmt), s.engineTurn = none → s.host.rest = .reset :: rest →
    step s = .next
      { s with
        status := { done := false, err := false, errcode := .none }
        width := 1920#16, height := 1080#16, srcAddr := 0#32, dstAddr := 0#32, outLen := 0#32
        job := none
        host := { s.host with rest := rest }
        sched := s.sched.tick }

/-- R28, R29: bits 15:0 of WIDTH and HEIGHT hold W and H and bits 31:16 read 0; a write while BUSY = 0 stores bits
15:0 of the value and changes nothing else; a write while BUSY = 1 is ignored; the reset values. -/
def Obligations.WidthAndHeightRegisters : Prop :=
  (∀ (s : State) (v : Word),
    (s.busy = false → regWrite s 0x08 v = .next { s with width := v.setWidth 16 }) ∧
    (s.busy = false → regWrite s 0x0C v = .next { s with height := v.setWidth 16 }) ∧
    (s.busy = true → regWrite s 0x08 v = .next s ∧ regWrite s 0x0C v = .next s) ∧
    (readOffset s 0x08).toNat = s.width.toNat ∧
    (readOffset s 0x0C).toNat = s.height.toNat ∧
    (∀ k, 16 ≤ k → (readOffset s 0x08).getLsbD k = false ∧ (readOffset s 0x0C).getLsbD k = false) ∧
    (operands s).w = s.width.toNat ∧ (operands s).h = s.height.toNat) ∧
  State.reset.width.toNat = 1920 ∧ State.reset.height.toNat = 1080

/-- R30, R31: SRC_ADDR and DST_ADDR hold any 32-bit byte address; a write while BUSY = 0 stores it and changes nothing else;
a write while BUSY = 1 is ignored; the reset values are 0. SRC_ADDR is the address of the first byte of the frame of a
command, DST_ADDR the address the engine writes its Out[0] to. R82: they are the command's SRC and DST. -/
def Obligations.AddressRegisters : Prop :=
  (∀ (s : State) (v : Word),
    (s.busy = false → regWrite s 0x10 v = .next { s with srcAddr := v }) ∧
    (s.busy = false → regWrite s 0x14 v = .next { s with dstAddr := v }) ∧
    (s.busy = true → regWrite s 0x10 v = .next s ∧ regWrite s 0x14 v = .next s) ∧
    readOffset s 0x10 = s.srcAddr ∧ readOffset s 0x14 = s.dstAddr ∧
    (operands s).src = s.srcAddr.toNat ∧ (operands s).dst = s.dstAddr.toNat ∧
    (∀ fmt, (s.frame ((operands s).job fmt)).addr 0 0 0 = s.srcAddr.toNat ∧
      (s.writeOut ((operands s).job fmt) 0).mem.read s.dstAddr.toNat =
        (s.frame ((operands s).job fmt)).out fmt 0)) ∧
  State.reset.srcAddr = 0#32 ∧ State.reset.dstAddr = 0#32

/-- R23 to R27, R200: the bits of STATUS. BUSY is bit 0, DONE bit 1, ERR bit 2, ERRCODE bits 5:4 and never 3; bit 3 and
bits 31:6 read 0. ERRCODE is 1 for InvalidDimensions and 2 for InvalidFormatName: after the two rejections STATUS reads
0x14 and 0x24. -/
def Obligations.StatusBitsAreTheFields : Prop :=
  ErrCode.none.value = 0 ∧ ErrCode.invalidDimensions.value = 1 ∧ ErrCode.invalidFormatName.value = 2 ∧
  (∀ s : State, s.job = none →
    readOffset { s with status := { done := false, err := true, errcode := .invalidDimensions } } 0x04 = 0x14#32 ∧
    readOffset { s with status := { done := false, err := true, errcode := .invalidFormatName } } 0x04 = 0x24#32) ∧
  ∀ s : State,
    (readOffset s 0x04).getLsbD 0 = s.busy ∧
    (readOffset s 0x04).getLsbD 1 = s.status.done ∧
    (readOffset s 0x04).getLsbD 2 = s.status.err ∧
    ((readOffset s 0x04).extractLsb' 4 2).toNat = s.status.errcode.value ∧
    s.status.errcode.value ≠ 3 ∧
    (readOffset s 0x04).getLsbD 3 = false ∧
    (∀ k, 6 ≤ k → (readOffset s 0x04).getLsbD k = false)

/-- R33, and R27, R32: a write to STATUS or to OUT_LEN changes nothing, busy or not; every offset of the window that R21
does not list reads 0 and ignores writes; OUT_LEN reads its stored value. -/
def Obligations.ReadOnlyOffsetsIgnoreWrites : Prop :=
  ∀ (s : State) (v : Word),
    regWrite s 0x04 v = .next s ∧ regWrite s 0x18 v = .next s ∧ readOffset s 0x18 = s.outLen ∧
    (∀ off : Fin 32, off ∉ [0x00, 0x04, 0x08, 0x0C, 0x10, 0x14, 0x18] →
      readOffset s off = 0#32 ∧ regWrite s off v = .next s)

/-- R34: while BUSY = 1 a write at any offset of the window changes nothing and issues nothing; reads are allowed and
return the current values: the host's step of an `RD` sets its variable to the register and changes nothing of the
block, busy or not. -/
def Obligations.BusyWindowWritesIgnored : Prop :=
  (∀ (s : State) (off : Fin 32) (v : Word), s.busy = true → regWrite s off v = .next s) ∧
  (∀ (s : State) (r : Reg) (x : Nat) (rest : List HostStmt),
    s.engineTurn = none → s.host.rest = .rd r x :: rest →
    step s = .next
      { s with
        host := { s.host with rest := rest, vars := assocPut s.host.vars x (.word (readOffset s (regOffset r))) }
        sched := s.sched.tick })

/-- R57, R56 (b): a register access that is no aligned 32-bit access is refused; an aligned one of four bytes is the
access of the word whose bits 8k+7:8k are the byte at offset k. -/
def Obligations.RegisterAccessShapes : Prop :=
  (∀ (s : State) (off : Fin 32) (lanes : List Byte), ¬ (lanes.length = 4 ∧ off.val % 4 = 0) →
    busWrite s off lanes = .refused .registerAccessShape) ∧
  (∀ (s : State) (off : Fin 32) (width x : Nat), ¬ (width = 4 ∧ off.val % 4 = 0) →
    busRead s off width x = .refused .registerAccessShape) ∧
  (∀ (s : State) (off : Fin 32) (w : Word), off.val % 4 = 0 →
    busWrite s off [laneOf w 0, laneOf w 1, laneOf w 2, laneOf w 3] = regWrite s off w) ∧
  (∀ (s : State) (off : Fin 32) (x : Nat), off.val % 4 = 0 →
    busRead s off 4 x = .next (s.setVar x (.bytes
      [laneOf (readOffset s off) 0, laneOf (readOffset s off) 1,
       laneOf (readOffset s off) 2, laneOf (readOffset s off) 3]))) ∧
  (∀ (w : Word) (k n : Nat), k < 4 → n < 8 → (laneOf w k).getLsbD n = w.getLsbD (8 * k + n))

/-! ### Command words -/

/-- R81, R86: the words 0 to 7 name the eight formats, no other word names one, and decoding is total. -/
def Obligations.DecodeNamesExactlyTheTable : Prop :=
  ∀ c : Word,
    (∀ i, decodeWord c = .ok i ↔ c = encodeWord i) ∧
    (decodeWord c = .error (.invalidFormatName c) ↔ 7 < c.toNat) ∧
    ((∃ i, decodeWord c = .ok i) ∨ decodeWord c = .error (.invalidFormatName c))

/-- R80: bytes decode to a command exactly when they begin with its four bytes, and what is left is what follows them. -/
def Obligations.DecodeAgreesWithEncode : Prop :=
  ∀ (bs : List Byte) (i : Instr) (rest : List Byte), decode bs = .ok (i, rest) ↔ bs = encode i ++ rest

/-- The words of spec/opcode_table.json, written out as bytes, decode to their rows' commands; 8 and 0xFFFFFFFF name
none. -/
def Obligations.TableWordsDecode : Prop :=
  decode [0x00#8, 0x00#8, 0x00#8, 0x00#8] = .ok (.encodeRgb24, []) ∧
  decode [0x01#8, 0x00#8, 0x00#8, 0x00#8] = .ok (.encodeXrgb32, []) ∧
  decode [0x02#8, 0x00#8, 0x00#8, 0x00#8] = .ok (.encodeYuv444, []) ∧
  decode [0x03#8, 0x00#8, 0x00#8, 0x00#8] = .ok (.encodeI420, []) ∧
  decode [0x04#8, 0x00#8, 0x00#8, 0x00#8] = .ok (.encodeNv12, []) ∧
  decode [0x05#8, 0x00#8, 0x00#8, 0x00#8] = .ok (.encodeYuyv, []) ∧
  decode [0x06#8, 0x00#8, 0x00#8, 0x00#8] = .ok (.encodeUyvy, []) ∧
  decode [0x07#8, 0x00#8, 0x00#8, 0x00#8] = .ok (.encodeP010, []) ∧
  decode [0x08#8, 0x00#8, 0x00#8, 0x00#8] = .error (.invalidFormatName 8#32) ∧
  decode [0xFF#8, 0xFF#8, 0xFF#8, 0xFF#8] = .error (.invalidFormatName 0xFFFFFFFF#32)

/-- R22, R87: when the host's next statement writes a word to CMD and it is the host's turn, the step is what executing
the word does: exec of the command it names, or the rejection of an unknown word, in the state in which the host has
moved past the statement. For the state `withFetchWord` makes, the step is exec of the decoded command at s itself. R21,
R87: the step of a `WR` of each register is the write at its offset, the step of an `RD` sets the variable to what is read
there, and the steps of `busWrite` and `busRead` are those accesses (log entry 16). -/
def Obligations.StepRunsDecodedCommand : Prop :=
  (∀ (s : State) (c : Word) (rest : List HostStmt) (i : Instr),
    s.engineTurn = none → s.host.rest = .wr .cmd c :: rest → decodeWord c = .ok i →
    step s = exec i { s with host := { s.host with rest := rest }, sched := s.sched.tick }) ∧
  (∀ (s : State) (c : Word) (rest : List HostStmt) (e : DecodeError),
    s.engineTurn = none → s.host.rest = .wr .cmd c :: rest → decodeWord c = .error e →
    step s = issueUnknown { s with host := { s.host with rest := rest }, sched := s.sched.tick }) ∧
  (∀ (s : State) (w : Nat) (i : Instr), decodeTableWord 32 w = some i →
    step (s.withFetchWord 32 w) = exec i s) ∧
  (∀ (s : State) (r : Reg) (off : Fin 32) (v : Word) (rest : List HostStmt),
    (r, off) ∈ [(Reg.cmd, 0x00), (Reg.status, 0x04), (Reg.width, 0x08), (Reg.height, 0x0C), (Reg.srcAddr, 0x10),
      (Reg.dstAddr, 0x14), (Reg.outLen, 0x18)] →
    s.engineTurn = none → s.host.rest = .wr r v :: rest →
    step s = regWrite { s with host := { s.host with rest := rest }, sched := s.sched.tick } off v) ∧
  (∀ (s : State) (r : Reg) (off : Fin 32) (x : Nat) (rest : List HostStmt),
    (r, off) ∈ [(Reg.cmd, 0x00), (Reg.status, 0x04), (Reg.width, 0x08), (Reg.height, 0x0C), (Reg.srcAddr, 0x10),
      (Reg.dstAddr, 0x14), (Reg.outLen, 0x18)] →
    s.engineTurn = none → s.host.rest = .rd r x :: rest →
    step s = .next
      { s with
        host := { s.host with rest := rest, vars := assocPut s.host.vars x (.word (readOffset s off)) }
        sched := s.sched.tick }) ∧
  (∀ (s : State) (off : Fin 32) (lanes : List Byte) (rest : List HostStmt),
    s.engineTurn = none → s.host.rest = .busWrite off lanes :: rest →
    step s = busWrite { s with host := { s.host with rest := rest }, sched := s.sched.tick } off lanes) ∧
  (∀ (s : State) (off : Fin 32) (width x : Nat) (rest : List HostStmt),
    s.engineTurn = none → s.host.rest = .busRead off width x :: rest →
    step s = busRead { s with host := { s.host with rest := rest }, sched := s.sched.tick } off width x)

/-! ### Commands -/

/-- R22: a word written to CMD while BUSY = 0 is issued; while BUSY = 1 the write changes nothing, whatever the word;
CMD reads 0. -/
def Obligations.CommandWriteIssuesOnlyWhenIdle : Prop :=
  (∀ (s : State) (c : Word) (i : Instr), decodeWord c = .ok i → regWrite s 0x00 c = exec i s) ∧
  (∀ (s : State) (c : Word) (e : DecodeError), decodeWord c = .error e → regWrite s 0x00 c = issueUnknown s) ∧
  (∀ (s : State) (c : Word), s.busy = true → regWrite s 0x00 c = .next s) ∧
  (∀ (i : Instr) (s : State), s.busy = true → exec i s = .next s) ∧
  (∀ s : State, readOffset s 0x00 = 0#32)

/-- R150 for the formats that are not subsampled: ENCODE.RGB24, ENCODE.XRGB32 and ENCODE.YUV444, issued while idle with
at least one pixel and ranges that keep the contract, complete in an accepted job, whatever the parity of W and H:
STATUS.DONE, ERR and ERRCODE 0, OUT_LEN = LEN, the job's fields those of the registers. Nothing else changes. -/
def Obligations.FullResolutionCommandsAccept : Prop :=
  ∀ (i : Instr) (s : State), (i = .encodeRgb24 ∨ i = .encodeXrgb32 ∨ i = .encodeYuv444) →
    s.job = none → s.width.toNat ≠ 0 → s.height.toNat ≠ 0 → (operands s).breach s.params i.format = none →
    exec i s = .next
      { s with
        status := { done := false, err := false, errcode := .none }
        outLen := BitVec.ofNat 32 (outputLen s.width.toNat s.height.toNat i.format)
        job := some
          { fmt := i.format, w := s.width.toNat, h := s.height.toNat
            src := s.srcAddr.toNat, dst := s.dstAddr.toNat
            len := outputLen s.width.toNat s.height.toNat i.format, written := [], stuck := false }
        sched := s.sched.redraw }

/-- R150 for the subsampled formats: ENCODE.I420, NV12, YUYV, UYVY and P010, issued while idle with W and H even and not
0 and ranges that keep the contract, complete in an accepted job. Nothing else changes. -/
def Obligations.SubsampledCommandsAccept : Prop :=
  ∀ (i : Instr) (s : State),
    (i = .encodeI420 ∨ i = .encodeNv12 ∨ i = .encodeYuyv ∨ i = .encodeUyvy ∨ i = .encodeP010) →
    s.job = none → s.width.toNat ≠ 0 → s.height.toNat ≠ 0 →
    s.width.toNat % 2 = 0 → s.height.toNat % 2 = 0 → (operands s).breach s.params i.format = none →
    exec i s = .next
      { s with
        status := { done := false, err := false, errcode := .none }
        outLen := BitVec.ofNat 32 (outputLen s.width.toNat s.height.toNat i.format)
        job := some
          { fmt := i.format, w := s.width.toNat, h := s.height.toNat
            src := s.srcAddr.toNat, dst := s.dstAddr.toNat
            len := outputLen s.width.toNat s.height.toNat i.format, written := [], stuck := false }
        sched := s.sched.redraw }

/-- R150, R202: each of the eight commands, issued while idle with W = 0 or H = 0 (both even for a subsampled format),
completes in the issuing step: BUSY 0, DONE 1, OUT_LEN 0, no memory written, wherever SRC and DST point. -/
def Obligations.EmptyFrameFinishesAtOnce : Prop :=
  ∀ (i : Instr) (s : State), s.job = none → (s.width.toNat = 0 ∨ s.height.toNat = 0) →
    (subsampled i.format = true → s.width.toNat % 2 = 0 ∧ s.height.toNat % 2 = 0) →
    exec i s = .next
      { s with
        status := { done := true, err := false, errcode := .none }
        outLen := 0#32
        job := none }

/-- R202, R204: a subsampled command issued while idle with W or H odd is rejected with InvalidDimensions, whatever the
ranges: ERR 1, ERRCODE 1, DONE 0, BUSY 0, OUT_LEN 0, and nothing else changes. The full-resolution commands, and every
command with W and H even, 0 included, are never rejected so. -/
def Obligations.OddDimensionsRejected : Prop :=
  (∀ (i : Instr) (s : State),
    (i = .encodeI420 ∨ i = .encodeNv12 ∨ i = .encodeYuyv ∨ i = .encodeUyvy ∨ i = .encodeP010) →
    s.job = none → (s.width.toNat % 2 = 1 ∨ s.height.toNat % 2 = 1) →
    exec i s = .next
      { s with status := { done := false, err := true, errcode := .invalidDimensions }, outLen := 0#32 }) ∧
  (∀ (i : Instr) (s t : State), (i = .encodeRgb24 ∨ i = .encodeXrgb32 ∨ i = .encodeYuv444) →
    s.job = none → exec i s = .next t → t.status.err = false) ∧
  (∀ (i : Instr) (s t : State), s.width.toNat % 2 = 0 → s.height.toNat % 2 = 0 → s.job = none →
    exec i s = .next t → t.status.err = false)

/-- R83, R201, R204: a word above 7 written to CMD while idle is rejected with InvalidFormatName, whatever W, H and the
ranges are: ERR 1, ERRCODE 2, DONE 0, BUSY 0, OUT_LEN 0, and nothing else changes. -/
def Obligations.UnknownWordRejected : Prop :=
  ∀ (s : State) (c : Word), s.job = none → 7 < c.toNat →
    regWrite s 0x00 c = .next
      { s with status := { done := false, err := true, errcode := .invalidFormatName }, outLen := 0#32 }

/-- R203: the format is checked before the dimensions, the dimensions before the contract; the first failing check
decides. -/
def Obligations.ChecksAreMadeInOrder : Prop :=
  ∀ (s : State) (c : Word), s.job = none →
    (7 < c.toNat → ∃ t, regWrite s 0x00 c = .next t ∧ t.status.errcode = .invalidFormatName) ∧
    (∀ i, decodeWord c = .ok i → badDimensions i.format s.width.toNat s.height.toNat = true →
      ∃ t, regWrite s 0x00 c = .next t ∧ t.status.errcode = .invalidDimensions) ∧
    (∀ i r, decodeWord c = .ok i → badDimensions i.format s.width.toNat s.height.toNat = false →
      (operands s).breach s.params i.format = some r → regWrite s 0x00 c = .refused r) ∧
    (∀ i, decodeWord c = .ok i → badDimensions i.format s.width.toNat s.height.toNat = false →
      (operands s).breach s.params i.format = none →
      ∃ t, regWrite s 0x00 c = .next t ∧ t.status.err = false ∧ t.status.errcode = .none)

/-- R51, R54, R55, R59: a command that passes the checks of format and dimensions is refused exactly when a range passes
the top of memory, the two ranges share an address, or a range holds one of the 0x20 addresses of the register window, as
the platform maps it, or an address of a location with side effects. -/
def Obligations.RefusedExactlyOnBreach : Prop :=
  ∀ (i : Instr) (s : State), s.job = none →
    (subsampled i.format = true → s.width.toNat % 2 = 0 ∧ s.height.toNat % 2 = 0) →
    let j := (operands s).job i.format
    ((∃ r, exec i s = .refused r) ↔
      (4294967296 < j.src + 3 * (j.w * j.h) ∨ 4294967296 < j.dst + j.len ∨
        (∃ a, j.inSource a = true ∧ j.inDest a = true) ∨
        (∃ a b, (j.inSource a = true ∨ j.inDest a = true) ∧
          s.params.windowInMemory = some b ∧ b ≤ a ∧ a < b + 32) ∨
        (∃ a r, (j.inSource a = true ∨ j.inDest a = true) ∧
          r ∈ s.params.sideEffects ∧ r.base ≤ a ∧ a < r.base + r.size)))

/-- R24 to R26, R206: what DONE, ERR and ERRCODE were before a command word is issued makes no difference to what it
does: they are cleared before its checks. -/
def Obligations.EarlierStatusMakesNoDifference : Prop :=
  ∀ (i : Instr) (c : Word) (s : State) (st : Status), s.job = none →
    exec i { s with status := st } = exec i s ∧
    regWrite { s with status := st } 0x00 c = regWrite s 0x00 c

/-- R204, R62, R34: the frame of issuing a command, all eight: whatever the outcome, if it is a next state then WIDTH,
HEIGHT, SRC_ADDR, DST_ADDR, the parameters, the host and every byte of memory are unchanged; so it is for a word that
names no format. -/
def Obligations.IssuingFrame : Prop :=
  ∀ (c : Word) (s t : State), regWrite s 0x00 c = .next t →
    t.width = s.width ∧ t.height = s.height ∧ t.srcAddr = s.srcAddr ∧ t.dstAddr = s.dstAddr ∧
    t.params = s.params ∧ t.host = s.host ∧ (∀ a, t.mem.read a = s.mem.read a)

/-- R32: OUT_LEN after a command word issued while idle: LEN when it is accepted, 0 when it is rejected; LEN is below
2^32 for every accepted command, so OUT_LEN equals it. It keeps its value until the next command word: no engine step,
no write at another offset and no host statement but a write in the window or a reset changes it. Its reset value is
0. -/
def Obligations.OutLenIsTheLength : Prop :=
  (∀ (i : Instr) (s t : State), s.job = none → exec i s = .next t →
    (t.status.err = true → t.outLen = 0#32) ∧
    (t.status.err = false → t.outLen.toNat = outputLen s.width.toNat s.height.toNat i.format)) ∧
  (∀ (c : Word) (s t : State), s.job = none → 7 < c.toNat → regWrite s 0x00 c = .next t → t.outLen = 0#32) ∧
  (∀ (s t : State) (off : Fin 32) (v : Word), off ≠ 0x00 → regWrite s off v = .next t → t.outLen = s.outLen) ∧
  (∀ (s t : State) (j : Job), s.engineTurn = some j → step s = .next t → t.outLen = s.outLen) ∧
  (∀ (s t : State) (st : HostStmt) (rest : List HostStmt), s.engineTurn = none → s.host.rest = st :: rest →
    st ≠ .reset → (∀ c, st ≠ .wr .cmd c) → (∀ off lanes, st ≠ .busWrite off lanes) →
    step s = .next t → t.outLen = s.outLen) ∧
  State.reset.outLen = 0#32

/-- R205: a rejected command word issued again in the state its rejection left gives the same error and changes
nothing. -/
def Obligations.RejectionRepeats : Prop :=
  ∀ (c : Word) (s t : State), s.job = none → regWrite s 0x00 c = .next t → t.status.err = true →
    regWrite t 0x00 c = .next t

/-! ### Color Transform -/

/-- R103: the accumulators' values, ranges, corner cases and example; every partial sum of products, in any order of accumulation and with or
without BIAS, lies in [-127500000, 255500000], and each product's magnitude is at most 149685000. -/
def Obligations.AccumulatorsFitTheirRanges : Prop :=
  ∀ r g b : Byte,
    accY r g b = 299000 * r.toNat + 587000 * g.toNat + 114000 * b.toNat ∧
    accU r g b = -168736 * r.toNat - 331264 * g.toNat + 500000 * b.toNat + 128000000 ∧
    accV r g b = 500000 * r.toNat - 418688 * g.toNat - 81312 * b.toNat + 128000000 ∧
    (0 ≤ accY r g b ∧ accY r g b ≤ 255000000) ∧
    (500000 ≤ accU r g b ∧ accU r g b ≤ 255500000) ∧
    (500000 ≤ accV r g b ∧ accV r g b ≤ 255500000) ∧
    (∀ (k : Int) (x : Byte),
      k ∈ [299000, 587000, 114000, -168736, -331264, 500000, -418688, -81312] →
      -149685000 ≤ k * x.toNat ∧ k * x.toNat ≤ 149685000) ∧
    (∀ er eg eb ebias : Int, er ∈ [0, 1] → eg ∈ [0, 1] → eb ∈ [0, 1] → ebias ∈ [0, 1] →
      ∀ kr kg kb bias : Int,
        (kr, kg, kb, bias) ∈ [(299000, 587000, 114000, 0), (-168736, -331264, 500000, 128000000),
          (500000, -418688, -81312, 128000000)] →
        -127500000 ≤ er * (kr * r.toNat) + eg * (kg * g.toNat) + eb * (kb * b.toNat) + ebias * bias ∧
        er * (kr * r.toNat) + eg * (kg * g.toNat) + eb * (kb * b.toNat) + ebias * bias ≤ 255500000) ∧
    (accY 0#8 0#8 0#8 = 0 ∧ accU 0#8 0#8 0#8 = 128000000 ∧ accV 0#8 0#8 0#8 = 128000000) ∧
    (accY 255#8 255#8 255#8 = 255000000 ∧ accU 255#8 255#8 255#8 = 128000000 ∧
      accV 255#8 255#8 255#8 = 128000000) ∧
    (accY 255#8 0#8 0#8 = 76245000 ∧ accU 255#8 0#8 0#8 = 84972320 ∧ accV 255#8 0#8 0#8 = 255500000)

/-- R104: the full-range clip is to [0, 255000000]; its lower bound is never active, its upper bound never for luma, for
U exactly at the four inputs and for V exactly at the eight inputs the rule names. -/
def Obligations.FullRangeClipIsActiveExactlyAt : Prop :=
  ∀ r g b : Byte,
    (∀ ch, fullClip (acc ch r g b) = min (max (acc ch r g b) 0) 255000000) ∧
    (∀ ch, 0 ≤ acc ch r g b) ∧
    acc .y r g b ≤ 255000000 ∧
    (255000000 < acc .u r g b ↔
      (r, g, b) ∈ [(0#8, 0#8, 255#8), (0#8, 1#8, 255#8), (1#8, 0#8, 255#8), (2#8, 0#8, 255#8)]) ∧
    (255000000 < acc .v r g b ↔
      (r, g, b) ∈ [(255#8, 0#8, 0#8), (255#8, 0#8, 1#8), (255#8, 0#8, 2#8), (255#8, 0#8, 3#8), (255#8, 0#8, 4#8),
        (255#8, 0#8, 5#8), (255#8, 0#8, 6#8), (255#8, 1#8, 0#8)])

/-- R101, R102, R105: with `CT_TIE_DOWN` false the transform is the source's BT.601 matrix, clamps and rescaling over
the rationals, truncated once at the end. -/
def Obligations.TransformIsTheExactMatrix : Prop :=
  ∀ r g b : Byte,
    let R : ℚ := r.toNat
    let G : ℚ := g.toNat
    let B : ℚ := b.toNat
    let Y' : ℚ := 299 / 1000 * R + 587 / 1000 * G + 114 / 1000 * B
    let U' : ℚ := -168736 / 1000000 * R - 331264 / 1000000 * G + 1 / 2 * B + 128
    let V' : ℚ := 1 / 2 * R - 418688 / 1000000 * G - 81312 / 1000000 * B + 128
    let full (t : ℚ) : ℚ := min (max t 0) 255
    ((ct [] .y r g b).toNat : ℤ) = min (max ⌊full Y' * 219 / 255 + 16⌋ 16) 235 ∧
    ((ct [] .u r g b).toNat : ℤ) = min (max ⌊full U' * 224 / 255 + 16⌋ 16) 240 ∧
    ((ct [] .v r g b).toNat : ℤ) = min (max ⌊full V' * 224 / 255 + 16⌋ 16) 240

/-- R111, R114: the limited-range invariant, for every input and every value of `CT_TIE_DOWN`; with `CT_TIE_DOWN` false
the extremes of U and V are reached. -/
def Obligations.LimitedRangeInvariant : Prop :=
  (∀ (ties : List TiePoint) (r g b : Byte),
    (16 ≤ (ct ties .y r g b).toNat ∧ (ct ties .y r g b).toNat ≤ 235) ∧
    (16 ≤ (ct ties .u r g b).toNat ∧ (ct ties .u r g b).toNat ≤ 240) ∧
    (16 ≤ (ct ties .v r g b).toNat ∧ (ct ties .v r g b).toNat ≤ 240)) ∧
  ct [] .u 255#8 255#8 0#8 = 16#8 ∧ accU 255#8 255#8 0#8 = 500000 ∧ ct [] .u 0#8 0#8 255#8 = 240#8 ∧
  ct [] .v 0#8 255#8 255#8 = 16#8 ∧ ct [] .v 255#8 0#8 0#8 = 240#8

/-- R112: a grey pixel has U = V = 128 whatever `CT_TIE_DOWN` is, and Y = 219k // 255 + 16 when it is false. -/
def Obligations.GreyIsNeutral : Prop :=
  ∀ (ties : List TiePoint) (k : Byte),
    accU k k k = 128000000 ∧ accV k k k = 128000000 ∧ accY k k k = 1000000 * k.toNat ∧
    ct ties .u k k k = 128#8 ∧ ct ties .v k k k = 128#8 ∧
    (ct [] .y k k k).toNat = 219 * k.toNat / 255 + 16

/-- R113: with `CT_TIE_DOWN` false luma is a function of S = 299r + 587g + 114b alone, 73S // 85000 + 16, and is monotone
in each component. -/
def Obligations.LumaDependsOnOneSum : Prop :=
  (∀ r g b : Byte,
    (ct [] .y r g b).toNat = 73 * (299 * r.toNat + 587 * g.toNat + 114 * b.toNat) / 85000 + 16) ∧
  (∀ r g b r' g' b' : Byte, r.toNat ≤ r'.toNat → g.toNat ≤ g'.toNat → b.toNat ≤ b'.toNat →
    (ct [] .y r g b).toNat ≤ (ct [] .y r' g' b').toNat)

/-- R107, R110: `CT_TIE_DOWN` takes one from a channel's value before the final clamp where it holds at a tie point, and
has no effect at any other input. -/
def Obligations.TieDownOnlyAtTiePoints : Prop :=
  ∀ (ties : List TiePoint) (ch : Channel) (r g b : Byte),
    (fullClip (acc ch r g b) * span ch % 255000000 ≠ 0 → ct ties ch r g b = ct [] ch r g b) ∧
    ({ ch := ch, r := r, g := g, b := b } ∉ ties → ct ties ch r g b = ct [] ch r g b) ∧
    (fullClip (acc ch r g b) * span ch % 255000000 = 0 → { ch := ch, r := r, g := g, b := b } ∈ ties →
      ((ct ties ch r g b).toNat : ℤ) =
        clamp (fullClip (acc ch r g b) * span ch / 255000000 + 16 - 1) 16 (limitTop ch))

/-! ### Chroma Subsampler -/

/-- R131: a 4:2:0 sample is the truncated average of the 2×2 block; the sum is at most 960; the result lies between the
least and the greatest of the four and in [16, 240]. -/
def Obligations.Chroma420IsTruncatedAverage : Prop :=
  ∀ (f : Frame) (ch : Channel) (cx cy : Nat), (ch = .u ∨ ch = .v) →
    let a := (f.plane ch (2 * cx) (2 * cy)).toNat
    let b := (f.plane ch (2 * cx + 1) (2 * cy)).toNat
    let c := (f.plane ch (2 * cx) (2 * cy + 1)).toNat
    let d := (f.plane ch (2 * cx + 1) (2 * cy + 1)).toNat
    (f.chroma420 ch cx cy).toNat = (a + b + c + d) / 4 ∧ a + b + c + d ≤ 960 ∧
    min (min a b) (min c d) ≤ (f.chroma420 ch cx cy).toNat ∧
    (f.chroma420 ch cx cy).toNat ≤ max (max a b) (max c d) ∧
    16 ≤ (f.chroma420 ch cx cy).toNat ∧ (f.chroma420 ch cx cy).toNat ≤ 240

/-- R132: a 4:2:2 sample is the even column's; changing the source bytes of an odd-column pixel changes no 4:2:2 sample
of the frame. -/
def Obligations.Chroma422TakesEvenColumn : Prop :=
  (∀ (f : Frame) (ch : Channel) (gx y : Nat), f.chroma422 ch gx y = f.plane ch (2 * gx) y) ∧
  (∀ (f : Frame) (ch : Channel) (gx y ox oy c : Nat) (v : Byte), f.w % 2 = 0 →
    gx < f.w / 2 → y < f.h → ox < f.w / 2 → oy < f.h → c < 3 →
    ({ f with mem := f.mem.write (f.addr (2 * ox + 1) oy c) v } : Frame).chroma422 ch gx y = f.chroma422 ch gx y)

/-! ### Layout Packers -/

/-- R151: the output lengths; for even W and H those of I420 and NV12 are 3WH/2 and that of P010 3WH; the values at
1920 × 1080. -/
def Obligations.OutputLengths : Prop :=
  (∀ w h : Nat,
    outputLen w h .rgb24 = w * h * 3 ∧ outputLen w h .xrgb32 = w * h * 4 ∧ outputLen w h .yuv444 = w * h * 3 ∧
    outputLen w h .i420 = w * h + 2 * (w / 2) * (h / 2) ∧ outputLen w h .nv12 = w * h + 2 * (w / 2) * (h / 2) ∧
    outputLen w h .yuyv = w * h * 2 ∧ outputLen w h .uyvy = w * h * 2 ∧
    outputLen w h .p010 = 2 * (w * h + 2 * (w / 2) * (h / 2))) ∧
  (∀ w h : Nat, w % 2 = 0 → h % 2 = 0 →
    outputLen w h .i420 = w * h * 3 / 2 ∧ outputLen w h .nv12 = w * h * 3 / 2 ∧ outputLen w h .p010 = 3 * w * h) ∧
  [PixelFormat.rgb24, .xrgb32, .yuv444, .i420, .nv12, .yuyv, .uyvy, .p010].map (outputLen 1920 1080) =
    [6220800, 8294400, 6220800, 3110400, 3110400, 4147200, 4147200, 6220800]

/-- R153: the 10-bit expansion: a truncated 10-bit value in bits 15:6, bits 5:0 zero; the rule's corner cases. -/
def Obligations.TenBitExpansion : Prop :=
  (∀ v : Byte, (p10 v).toNat = v.toNat * 1023 / 255 * 64 ∧ v.toNat * 1023 / 255 ≤ 1023 ∧
    ∀ k, k < 6 → (p10 v).getLsbD k = false) ∧
  p10 0#8 = 0x0000#16 ∧ p10 255#8 = 0xFFC0#16 ∧ p10 16#8 = 0x1000#16 ∧ p10 235#8 = 0xEB80#16 ∧
  p10 240#8 = 0xF080#16 ∧ p10 81#8 = 0x5100#16

/-- R154, R155, R40: ENCODE.RGB24 and ENCODE.XRGB32: words 0 and 1, never an error of dimensions, rows bottom-up, B, G, R
(and 0) of each pixel, whose R, G and B are the bytes of memory at SRC + 3(yW + x) + 0, 1 and 2. -/
def Obligations.BottomUpLayouts : Prop :=
  decodeWord 0x00000000#32 = .ok .encodeRgb24 ∧ Instr.encodeRgb24.format = .rgb24 ∧
  decodeWord 0x00000001#32 = .ok .encodeXrgb32 ∧ Instr.encodeXrgb32.format = .xrgb32 ∧
  (∀ w h, badDimensions .rgb24 w h = false ∧ badDimensions .xrgb32 w h = false) ∧
  (∀ (f : Frame) (x y : Nat), x < f.w → y < f.h →
    let o := 3 * ((f.h - 1 - y) * f.w + x)
    f.out .rgb24 (o + 0) = f.mem.read (f.src + 3 * (y * f.w + x) + 2) ∧
    f.out .rgb24 (o + 1) = f.mem.read (f.src + 3 * (y * f.w + x) + 1) ∧
    f.out .rgb24 (o + 2) = f.mem.read (f.src + 3 * (y * f.w + x) + 0)) ∧
  (∀ (f : Frame) (x y : Nat), x < f.w → y < f.h →
    let o := 4 * ((f.h - 1 - y) * f.w + x)
    f.out .xrgb32 (o + 0) = f.mem.read (f.src + 3 * (y * f.w + x) + 2) ∧
    f.out .xrgb32 (o + 1) = f.mem.read (f.src + 3 * (y * f.w + x) + 1) ∧
    f.out .xrgb32 (o + 2) = f.mem.read (f.src + 3 * (y * f.w + x) + 0) ∧
    f.out .xrgb32 (o + 3) = 0x00#8)

/-- R156, R109, R40: ENCODE.YUV444: word 2, no error, the Y, U and V planes one after the other, every byte in [16, 240];
each plane's sample is the Color Transform of its pixel's R, G and B, the bytes of memory at SRC + 3(yW + x) + 0, 1, 2. -/
def Obligations.Yuv444Layout : Prop :=
  decodeWord 0x00000002#32 = .ok .encodeYuv444 ∧ Instr.encodeYuv444.format = .yuv444 ∧
  (∀ w h, badDimensions .yuv444 w h = false) ∧
  (∀ (f : Frame) (ch : Channel) (x y : Nat),
    f.plane ch x y = ct f.ties ch (f.mem.read (f.src + 3 * (y * f.w + x) + 0))
      (f.mem.read (f.src + 3 * (y * f.w + x) + 1)) (f.mem.read (f.src + 3 * (y * f.w + x) + 2))) ∧
  (∀ (f : Frame) (x y : Nat), x < f.w → y < f.h →
    let i := y * f.w + x
    f.out .yuv444 i = f.plane .y x y ∧
    f.out .yuv444 (f.w * f.h + i) = f.plane .u x y ∧
    f.out .yuv444 (2 * f.w * f.h + i) = f.plane .v x y) ∧
  (∀ (f : Frame) (i : Nat), i < outputLen f.w f.h .yuv444 →
    16 ≤ (f.out .yuv444 i).toNat ∧ (f.out .yuv444 i).toNat ≤ 240)

/-- R157: ENCODE.I420: word 3, odd W or H an error, the Y plane, then U420 and V420. -/
def Obligations.I420Layout : Prop :=
  decodeWord 0x00000003#32 = .ok .encodeI420 ∧ Instr.encodeI420.format = .i420 ∧
  (∀ w h, badDimensions .i420 w h = true ↔ w % 2 = 1 ∨ h % 2 = 1) ∧
  (∀ (f : Frame) (x y : Nat), x < f.w → y < f.h → f.out .i420 (y * f.w + x) = f.plane .y x y) ∧
  (∀ (f : Frame) (cx cy : Nat), cx < f.w / 2 → cy < f.h / 2 →
    let j := cy * (f.w / 2) + cx
    f.out .i420 (f.w * f.h + j) = f.chroma420 .u cx cy ∧
    f.out .i420 (f.w * f.h + (f.w / 2) * (f.h / 2) + j) = f.chroma420 .v cx cy)

/-- R158: ENCODE.NV12: word 4, odd W or H an error, the Y plane, then U420 and V420 interleaved. -/
def Obligations.Nv12Layout : Prop :=
  decodeWord 0x00000004#32 = .ok .encodeNv12 ∧ Instr.encodeNv12.format = .nv12 ∧
  (∀ w h, badDimensions .nv12 w h = true ↔ w % 2 = 1 ∨ h % 2 = 1) ∧
  (∀ (f : Frame) (x y : Nat), x < f.w → y < f.h → f.out .nv12 (y * f.w + x) = f.plane .y x y) ∧
  (∀ (f : Frame) (cx cy : Nat), cx < f.w / 2 → cy < f.h / 2 →
    let j := cy * (f.w / 2) + cx
    f.out .nv12 (f.w * f.h + 2 * j) = f.chroma420 .u cx cy ∧
    f.out .nv12 (f.w * f.h + 2 * j + 1) = f.chroma420 .v cx cy)

/-- R159, R160: ENCODE.YUYV and ENCODE.UYVY: words 5 and 6, odd W or H an error, Y0, U, Y1, V (or U, Y0, V, Y1) of each
pair of pixels. -/
def Obligations.PackedLayouts : Prop :=
  decodeWord 0x00000005#32 = .ok .encodeYuyv ∧ Instr.encodeYuyv.format = .yuyv ∧
  decodeWord 0x00000006#32 = .ok .encodeUyvy ∧ Instr.encodeUyvy.format = .uyvy ∧
  (∀ w h, (badDimensions .yuyv w h = true ↔ w % 2 = 1 ∨ h % 2 = 1) ∧
    (badDimensions .uyvy w h = true ↔ w % 2 = 1 ∨ h % 2 = 1)) ∧
  ∀ (f : Frame) (gx y : Nat), f.w % 2 = 0 → gx < f.w / 2 → y < f.h →
    let o := 2 * y * f.w + 4 * gx
    (f.out .yuyv (o + 0) = f.plane .y (2 * gx) y ∧ f.out .yuyv (o + 1) = f.chroma422 .u gx y ∧
      f.out .yuyv (o + 2) = f.plane .y (2 * gx + 1) y ∧ f.out .yuyv (o + 3) = f.chroma422 .v gx y) ∧
    (f.out .uyvy (o + 0) = f.chroma422 .u gx y ∧ f.out .uyvy (o + 1) = f.plane .y (2 * gx) y ∧
      f.out .uyvy (o + 2) = f.chroma422 .v gx y ∧ f.out .uyvy (o + 3) = f.plane .y (2 * gx + 1) y)

/-- R161: ENCODE.P010: word 7, odd W or H an error, the 10-bit expansions of the Y plane, then of U420 and V420
interleaved, each 16-bit value low byte first. -/
def Obligations.P010Layout : Prop :=
  decodeWord 0x00000007#32 = .ok .encodeP010 ∧ Instr.encodeP010.format = .p010 ∧
  (∀ w h, badDimensions .p010 w h = true ↔ w % 2 = 1 ∨ h % 2 = 1) ∧
  (∀ (f : Frame) (x y : Nat), x < f.w → y < f.h →
    f.out .p010 (2 * (y * f.w + x) + 1) ++ f.out .p010 (2 * (y * f.w + x)) = p10 (f.plane .y x y)) ∧
  (∀ (f : Frame) (cx cy : Nat), cx < f.w / 2 → cy < f.h / 2 →
    let j := cy * (f.w / 2) + cx
    f.out .p010 (2 * f.w * f.h + 4 * j + 1) ++ f.out .p010 (2 * f.w * f.h + 4 * j) = p10 (f.chroma420 .u cx cy) ∧
    f.out .p010 (2 * f.w * f.h + 4 * j + 3) ++ f.out .p010 (2 * f.w * f.h + 4 * j + 2) =
      p10 (f.chroma420 .v cx cy)) ∧
  (∀ (f : Frame) (i k : Nat), i % 2 = 0 → k < 6 → (f.out .p010 i).getLsbD k = false)

/-- R163: every output byte is given by exactly one sample of the frame: below LEN no two offsets hold the same byte of
the same sample, and every sample lies in the frame. -/
def Obligations.EachOutputByteHasOneSample : Prop :=
  ∀ (fmt : PixelFormat) (w h : Nat), badDimensions fmt w h = false →
    (∀ i k, i < outputLen w h fmt → k < outputLen w h fmt → siteOf fmt w h i = siteOf fmt w h k → i = k) ∧
    (∀ i, i < outputLen w h fmt → ∀ p ∈ (siteOf fmt w h i).sample.pixels, p.1 < w ∧ p.2 < h)

/-- R62: the bytes of the output depend on the source bytes, W, H and the format alone: two memories that agree on the
source range give the same output, whatever else they hold. -/
def Obligations.OutputDependsOnlyOnSource : Prop :=
  ∀ (s s' : State) (j : Job), badDimensions j.fmt j.w j.h = false → s.params.tieDown = s'.params.tieDown →
    SameSource j s.mem s'.mem →
    ∀ i, i < outputLen j.w j.h j.fmt → (s.frame j).out j.fmt i = (s'.frame j).out j.fmt i

/-- R164: the cross-format laws: (a) NV12 and I420, (b) YUYV and UYVY, (c) P010 and NV12 of one frame, and (d) odd W or H
fails for every subsampled format. -/
def Obligations.CrossFormatLaws : Prop :=
  (∀ f : Frame, f.w % 2 = 0 → f.h % 2 = 0 →
    (∀ i, i < f.w * f.h → f.out .nv12 i = f.out .i420 i) ∧
    (∀ j, j < (f.w / 2) * (f.h / 2) →
      f.out .nv12 (f.w * f.h + 2 * j) = f.out .i420 (f.w * f.h + j) ∧
      f.out .nv12 (f.w * f.h + 2 * j + 1) = f.out .i420 (f.w * f.h + (f.w / 2) * (f.h / 2) + j)) ∧
    (∀ i, i % 4 = 0 → i < outputLen f.w f.h .yuyv →
      f.out .uyvy i = f.out .yuyv (i + 1) ∧ f.out .uyvy (i + 1) = f.out .yuyv i ∧
      f.out .uyvy (i + 2) = f.out .yuyv (i + 3) ∧ f.out .uyvy (i + 3) = f.out .yuyv (i + 2)) ∧
    (∀ k, k < 3 * f.w * f.h / 2 → f.out .p010 (2 * k + 1) ++ f.out .p010 (2 * k) = p10 (f.out .nv12 k))) ∧
  (∀ (i : Instr) (s t : State), subsampled i.format = true → (s.width.toNat % 2 = 1 ∨ s.height.toNat % 2 = 1) →
    s.job = none → exec i s = .next t → t.status.errcode = .invalidDimensions ∧ t.job = none ∧ t.mem = s.mem)

/-! ### The engine -/

/-- R61, R62: when it is the engine's turn, an offset i is drawn and the platform admits the requests of its write, the step
writes i, which was not yet written, with the output byte, and no other address; the registers, the parameters and the
host do not change; i is then written, and the job goes on unless that was the last one. While an offset is left, one is
drawn, and each of them by some value of the free one (log entry 1). R63: the requests but the written address lie in the
source range; which of it is read is log entry 2's choice: what the byte depends on and one drawn byte or none. -/
def Obligations.EngineStepWritesOneOutputByte : Prop :=
  (∀ (s : State) (j : Job) (i : Nat), s.engineTurn = some j → j.nextOffset s.sched.pick = some i →
    s.admits j i = true →
    i < j.len ∧ i ∉ j.written ∧ ∃ t, step s = .next t ∧
      t.mem.read (j.dst + i) = (s.frame j).out j.fmt i ∧
      (∀ a, a ≠ j.dst + i → t.mem.read a = s.mem.read a) ∧
      t.width = s.width ∧ t.height = s.height ∧ t.srcAddr = s.srcAddr ∧ t.dstAddr = s.dstAddr ∧
      t.outLen = s.outLen ∧ t.params = s.params ∧ t.host = s.host ∧
      ((∀ k, k < j.len → k ∉ j.written → k = i) →
        t.job = none ∧ t.status = { done := true, err := false, errcode := .none }) ∧
      ((∃ k, k < j.len ∧ k ∉ j.written ∧ k ≠ i) → t.status = s.status ∧
        ∃ j', t.job = some j' ∧ (∀ k, k ∈ j'.written ↔ k = i ∨ k ∈ j.written) ∧
          { j' with written := j.written } = j)) ∧
  (∀ (j : Job) (pick : Nat), (∃ k, k < j.len ∧ k ∉ j.written) → ∃ i, j.nextOffset pick = some i) ∧
  (∀ (j : Job) (i : Nat), i < j.len → i ∉ j.written → ∃ pick, j.nextOffset pick = some i) ∧
  (∀ (s : State) (j : Job) (i a : Nat), Inv s → s.job = some j → i < j.len → a ∈ s.requests j i →
    a = j.dst + i ∨ j.inSource a = true) ∧
  (∀ (s : State) (j : Job) (i : Nat), s.sched.probe = 0 →
    s.requests j i = (j.dst + i) :: (s.frame j).siteReads (siteOf j.fmt j.w j.h i)) ∧
  (∀ (s : State) (j : Job) (i a : Nat), j.inSource a = true → s.sched.probe = a - j.src + 1 → a ∈ s.requests j i)

/-- R35, R24: BUSY goes to 0 and DONE to 1 in one step, exactly that of the last of LEN writes. -/
def Obligations.JobEndsWithTheLastWrite : Prop :=
  ∀ (s t : State) (j : Job), Inv s → s.engineTurn = some j → AllAdmitted s j → step s = .next t →
    (t.busy = false ↔ j.written.length + 1 = j.len) ∧ (t.status.done = true ↔ t.busy = false)

/-- R66, R24: when a job has ended, STATUS showing DONE = 1, the whole destination holds the output of the frame, which is
still what it was: every write of the job is performed before. Whatever the host did in the meantime. -/
def Obligations.FinishedJobHasWrittenItsOutput : Prop :=
  ∀ (s t : State) (j : Job), Inv s → s.job = some j → step s = .next t → t.status.done = true →
    t.job = none ∧ ∀ i, i < j.len →
      t.mem.read (j.dst + i) = (t.frame j).out j.fmt i ∧ t.mem.read (j.dst + i) = (s.frame j).out j.fmt i

/-- R63, R64, R231, R236: in a step with an active job, the host's or the engine's, a reset of the block included, no byte
of the source range changes, and each byte of the destination range keeps its value or becomes the output byte. -/
def Obligations.JobMemoryInEveryStep : Prop :=
  ∀ (s t : State) (j : Job), Inv s → s.job = some j → step s = .next t →
    (∀ a, j.inSource a = true → t.mem.read a = s.mem.read a) ∧
    (∀ i, i < j.len → t.mem.read (j.dst + i) = s.mem.read (j.dst + i) ∨
      t.mem.read (j.dst + i) = (s.frame j).out j.fmt i)

/-- R34, R35: while a job is active the registers it was issued with, OUT_LEN and its own fields but `written` and
`stuck` do not change. -/
def Obligations.JobOperandsStayFixed : Prop :=
  ∀ (s t : State) (j j' : Job), s.job = some j → step s = .next t → t.job = some j' →
    t.width = s.width ∧ t.height = s.height ∧ t.srcAddr = s.srcAddr ∧ t.dstAddr = s.dstAddr ∧
    t.outLen = s.outLen ∧ t.status = s.status ∧
    { j' with written := j.written, stuck := j.stuck } = j ∧ (∀ i, i ∈ j.written → i ∈ j'.written)

/-- R60: when the drawn offset's write asks for an address that is not admitted, the step leaves the engine stuck and
changes nothing else but the draw of the free values: memory, the registers, the parameters and the host stay, and BUSY
stays 1. From then on no step but a reset of the block ends the job or lets the engine write. A write is admitted when no
address it asks for, its own among them, is one the platform does not admit. -/
def Obligations.UnadmittedRequestSticksTheEngine : Prop :=
  (∀ (s : State) (j : Job) (i : Nat), s.engineTurn = some j → j.nextOffset s.sched.pick = some i →
    s.admits j i = false →
    step s = .next { s with job := some { j with stuck := true }, sched := s.sched.redraw }) ∧
  (∀ (s t : State) (j : Job), s.job = some j → j.stuck = true → step s = .next t →
    (∀ rest, s.host.rest ≠ .reset :: rest) →
    t.job = some j ∧ t.status = s.status ∧ t.outLen = s.outLen ∧ t.width = s.width ∧ t.height = s.height ∧
      t.srcAddr = s.srcAddr ∧ t.dstAddr = s.dstAddr ∧
      ∀ a, j.inSource a = true ∨ j.inDest a = true → t.mem.read a = s.mem.read a) ∧
  (∀ (s : State) (j : Job) (i : Nat),
    (s.admits j i = false ↔
      ∃ a r, a ∈ s.requests j i ∧ r ∈ s.params.notAdmitted ∧ r.base ≤ a ∧ a < r.base + r.size) ∧
    j.dst + i ∈ s.requests j i)

/-! ### The host -/

/-- R67, R87, R236, R237: the host's write of a byte of ordinary memory, outside the ranges of an active job, stores it and
changes no other address and nothing of the block; the host then goes on with the write's next byte at the next address,
if it has one. In a range of an active job the write is refused, whatever else holds of the address. A write of no bytes
does nothing. Which bytes are ordinary: those of the memory space outside the register window, the locations not admitted
and those with side effects (the stops at the others are log entry 7's). -/
def Obligations.HostMemoryWrite : Prop :=
  (∀ (s : State) (a : Nat) (b : Byte) (bs : List Byte) (rest : List HostStmt),
    s.engineTurn = none → s.host.rest = .mw a (b :: bs) :: rest → hostAccessStop s a = none →
    (∀ j, s.job = some j → j.inSource a = false ∧ j.inDest a = false) →
    ∃ t, step s = .next t ∧ t.mem.read a = b ∧ (∀ c, c ≠ a → t.mem.read c = s.mem.read c) ∧
      t.job = s.job ∧ t.status = s.status ∧ t.outLen = s.outLen ∧ t.width = s.width ∧ t.height = s.height ∧
      t.srcAddr = s.srcAddr ∧ t.dstAddr = s.dstAddr ∧ t.params = s.params ∧ t.sched = s.sched.tick ∧
      t.host.vars = s.host.vars ∧ t.host.prog = s.host.prog ∧
      (bs = [] → t.host.rest = rest) ∧ (bs ≠ [] → t.host.rest = .mw (a + 1) bs :: rest)) ∧
  (∀ (s : State) (a : Nat) (b : Byte) (bs : List Byte) (rest : List HostStmt) (j : Job),
    s.engineTurn = none → s.host.rest = .mw a (b :: bs) :: rest →
    s.job = some j → (j.inSource a = true ∨ j.inDest a = true) →
    step s = .refused .hostWriteDuringJob) ∧
  (∀ (s : State) (a : Nat) (rest : List HostStmt), s.engineTurn = none → s.host.rest = .mw a [] :: rest →
    step s = .next { s with host := { s.host with rest := rest }, sched := s.sched.tick }) ∧
  (∀ (s : State) (a : Nat), hostAccessStop s a = none ↔
    a < 4294967296 ∧ (∀ b, s.params.windowInMemory = some b → ¬ (b ≤ a ∧ a < b + 32)) ∧
    (∀ r, r ∈ s.params.notAdmitted → ¬ (r.base ≤ a ∧ a < r.base + r.size)) ∧
    (∀ r, r ∈ s.params.sideEffects → ¬ (r.base ≤ a ∧ a < r.base + r.size)))

/-- R66, R64, R87: the host's read of a byte of ordinary memory takes the byte memory holds; with it the variable is set,
after the last byte, or the host goes on at the next address. Nothing else changes. A read of an offset an active job has
written puts the output byte in the variable, also while BUSY = 1. -/
def Obligations.HostMemoryRead : Prop :=
  (∀ (s : State) (a x : Nat) (got : List Byte) (rest : List HostStmt),
    s.engineTurn = none → s.host.rest = .mr a 1 x got :: rest → hostAccessStop s a = none →
    step s = .next
      { s with
        host := { s.host with rest := rest, vars := assocPut s.host.vars x (.bytes (got ++ [s.mem.read a])) }
        sched := s.sched.tick }) ∧
  (∀ (s : State) (a n x : Nat) (got : List Byte) (rest : List HostStmt),
    s.engineTurn = none → s.host.rest = .mr a (n + 2) x got :: rest → hostAccessStop s a = none →
    step s = .next
      { s with
        host := { s.host with rest := .mr (a + 1) (n + 1) x (got ++ [s.mem.read a]) :: rest }
        sched := s.sched.tick }) ∧
  (∀ (s : State) (a x : Nat) (got : List Byte) (rest : List HostStmt),
    s.engineTurn = none → s.host.rest = .mr a 0 x got :: rest →
    step s = .next
      { s with
        host := { s.host with rest := rest, vars := assocPut s.host.vars x (.bytes got) }
        sched := s.sched.tick }) ∧
  (∀ (s : State) (j : Job) (i x : Nat) (rest : List HostStmt), Inv s → s.job = some j → i ∈ j.written →
    s.engineTurn = none → s.host.rest = .mr (j.dst + i) 1 x [] :: rest → hostAccessStop s (j.dst + i) = none →
    step s = .next
      { s with
        host := { s.host with rest := rest, vars := assocPut s.host.vars x (.bytes [(s.frame j).out j.fmt i]) }
        sched := s.sched.tick })

/-- R87, R88: the expansions of the pseudo-instructions; ENCODE.YUV420 is ENCODE.I420; an immediate of `WR` or `SETUP`
and the address of an `MW` or `MR` above 0xFFFFFFFF are refused (log entry 17). In an assembled program a `WAIT` is its
loop under a label that no other statement names, so that a jump to it leads to the loop's `RD`. `IF` jumps when the bit
has the value and goes on when it has not: the bit of a word below 32, the bit of bytes below their number of bits, the
first byte's being 7:0. The model's choices: a bit past the end of what the variable holds, or of a variable not set,
reads as 0 (log entry 5; a test of bit 32 or above runs though HostStmt.wf calls it ill-formed, log entry 18), and a jump
to a label the program does not define is refused (log entry 9). `WAIT -> x` reached while BUSY = 0 is left after one pass, x then holding
STATUS; reached while BUSY = 1, with three host steps before the engine's next one or the engine stuck, it is back at its
`RD`, x holding STATUS with bit 0 set. -/
def Obligations.PseudoInstructions : Prop :=
  (∀ (i : Instr) (l : Nat), expandStmt l (.encode i) = some [.wr .cmd (encodeWord i)]) ∧
  (∀ l : Nat, expandStmt l .encodeYuv420 = some [.wr .cmd 3#32]) ∧
  (∀ l w h src dst : Nat, w < 4294967296 → h < 4294967296 → src < 4294967296 → dst < 4294967296 →
    expandStmt l (.setup w h src dst) =
      some [.wr .width (BitVec.ofNat 32 w), .wr .height (BitVec.ofNat 32 h),
        .wr .srcAddr (BitVec.ofNat 32 src), .wr .dstAddr (BitVec.ofNat 32 dst)]) ∧
  (∀ l x : Nat, expandStmt l (.wait x) = some [.label l, .rd .status x, .ifGoto x 0 true l]) ∧
  (∀ (l n : Nat) (r : Reg), 4294967295 < n → expandStmt l (.wr r n) = none) ∧
  (∀ l w h src dst : Nat,
    4294967295 < w ∨ 4294967295 < h ∨ 4294967295 < src ∨ 4294967295 < dst →
    expandStmt l (.setup w h src dst) = none) ∧
  (∀ (l a n x : Nat) (bs : List Byte), 4294967295 < a →
    expandStmt l (.mw a bs) = none ∧ expandStmt l (.mr a n x) = none) ∧
  (∀ (p p' : List AsmStmt) (x : Nat) (q : List HostStmt), assemble (p ++ .wait x :: p') = some q →
    ∃ (q1 q2 : List HostStmt) (l : Nat),
      q = q1 ++ [.label l, .rd .status x, .ifGoto x 0 true l] ++ q2 ∧
      assembleFrom (freshLabel (p ++ .wait x :: p')) p = some q1 ∧
      (∀ st, st ∈ q1 ++ q2 → l ∉ st.defines ∧ l ∉ st.jumpsTo) ∧
      afterLabel l q = some (.rd .status x :: .ifGoto x 0 true l :: q2)) ∧
  (∀ (s : State) (x bit l : Nat) (v : Bool) (rest : List HostStmt), s.engineTurn = none →
    s.host.rest = .ifGoto x bit v l :: rest →
    (∀ follow, s.varBit x bit = v → afterLabel l s.host.prog = some follow →
      step s = .next { s with host := { s.host with rest := follow }, sched := s.sched.tick }) ∧
    (s.varBit x bit ≠ v → step s = .next { s with host := { s.host with rest := rest }, sched := s.sched.tick }) ∧
    (s.varBit x bit = v → afterLabel l s.host.prog = none → step s = .refused .undefinedLabel)) ∧
  (∀ (s : State) (x bit : Nat) (w : Word), assocGet s.host.vars x = some (.word w) →
    (bit < 32 → s.varBit x bit = w.getLsbD bit) ∧ (32 ≤ bit → s.varBit x bit = false)) ∧
  (∀ (s : State) (x bit : Nat) (bs : List Byte), assocGet s.host.vars x = some (.bytes bs) →
    (∀ b, bs[bit / 8]? = some b → s.varBit x bit = b.getLsbD (bit % 8)) ∧
    (8 * bs.length ≤ bit → s.varBit x bit = false)) ∧
  (∀ (s : State) (x bit : Nat), assocGet s.host.vars x = none → s.varBit x bit = false) ∧
  (∀ (s : State) (x l : Nat) (rest : List HostStmt), s.job = none →
    s.host.rest = .label l :: .rd .status x :: .ifGoto x 0 true l :: rest →
    ∃ t, core.run 3 s = .next t ∧ t.host.rest = rest ∧
      assocGet t.host.vars x = some (.word (readOffset s 0x04)) ∧ (readOffset s 0x04).getLsbD 0 = false ∧
      t.status = s.status ∧ t.job = none ∧ t.mem = s.mem ∧ t.outLen = s.outLen) ∧
  (∀ (s : State) (j : Job) (x l : Nat) (rest : List HostStmt), s.job = some j →
    (j.stuck = true ∨ 3 ≤ s.sched.burst) →
    s.host.rest = .label l :: .rd .status x :: .ifGoto x 0 true l :: rest →
    afterLabel l s.host.prog = some (.rd .status x :: .ifGoto x 0 true l :: rest) →
    ∃ t, core.run 3 s = .next t ∧ t.host.rest = .rd .status x :: .ifGoto x 0 true l :: rest ∧
      assocGet t.host.vars x = some (.word (readOffset s 0x04)) ∧ (readOffset s 0x04).getLsbD 0 = true ∧
      t.status = s.status ∧ t.job = some j ∧ t.mem = s.mem ∧ t.outLen = s.outLen)

/-! ### The whole machine -/

/-- The invariant holds at reset. -/
def Obligations.ResetSatisfiesInvariant : Prop := Inv State.reset

/-- R23 to R26, R32, R35, R62: every step, the engine's and every statement of the host's, keeps the invariant. -/
def Obligations.StepKeepsInvariant : Prop := ∀ s t : State, Inv s → step s = .next t → Inv t

/-- The parameters never change (log entry 4). -/
def Obligations.ParametersNeverChange : Prop := ∀ s t : State, step s = .next t → t.params = s.params

/-- R240: weak fairness and progress. In every step with an active job that is not stuck, the job ends, or gets stuck,
or has fewer offsets left, or the host has used up one of the finitely many steps it has before the engine's next one
(log entry 1). -/
def Obligations.EveryStepMakesProgress : Prop :=
  ∀ (s t : State) (j : Job), s.job = some j → j.stuck = false → step s = .next t →
    t.job = none ∨ ∃ j', t.job = some j' ∧
      (j'.stuck = true ∨ j'.remaining.length < j.remaining.length ∨
        (j' = j ∧ t.sched.burst < s.sched.burst))

/-- R41, R62, R63, R240: an accepted job whose requests are all admitted runs to its end, whatever order the engine
writes in: with the host at rest, after as many steps as offsets are left, BUSY is 0 and DONE is 1, the destination
holds the output of the frame, and every other address and register is as before. -/
def Obligations.JobRunsToCompletion : Prop :=
  ∀ (s : State) (j : Job), Inv s → s.job = some j → j.stuck = false → s.host.rest = [] → AllAdmitted s j →
    ∃ t, core.run j.remaining.length s = .next t ∧
      t.job = none ∧ t.status = { done := true, err := false, errcode := .none } ∧
      (∀ i, i < j.len → t.mem.read (j.dst + i) = (s.frame j).out j.fmt i) ∧
      (∀ a, j.inDest a = false → t.mem.read a = s.mem.read a) ∧
      t.width = s.width ∧ t.height = s.height ∧ t.srcAddr = s.srcAddr ∧ t.dstAddr = s.dstAddr ∧
      t.outLen = s.outLen ∧ t.params = s.params ∧ t.host = s.host

/-- R150 and R154 to R161 end to end: each of the eight commands, issued in an idle state that satisfies the invariant
with at least one pixel, its dimensions and ranges in order and every request admitted, is accepted, and after LEN
further steps the destination holds the encoding of the frame the command was issued with: the frame of WIDTH and HEIGHT
at SRC_ADDR in memory as it was then, transformed with the machine's CT_TIE_DOWN. -/
def Obligations.CommandEncodesTheFrame : Prop :=
  ∀ (i : Instr) (s : State), Inv s → Ready s i.format → s.width.toNat ≠ 0 → s.height.toNat ≠ 0 →
    s.host.rest = [] → AllAdmitted s ((operands s).job i.format) →
    let j := (operands s).job i.format
    (s.frame j).w = s.width.toNat ∧ (s.frame j).h = s.height.toNat ∧ (s.frame j).src = s.srcAddr.toNat ∧
    (s.frame j).ties = s.params.tieDown ∧ (s.frame j).mem = s.mem ∧ j.dst = s.dstAddr.toNat ∧
    ∃ s' t, exec i s = .next s' ∧ s'.busy = true ∧ core.run j.len s' = .next t ∧
      (readOffset t 0x04).toNat = 2 ∧ t.outLen.toNat = j.len ∧
      (∀ k, k < j.len → t.mem.read (j.dst + k) = (s.frame j).out i.format k) ∧
      (∀ a, j.inDest a = false → t.mem.read a = s.mem.read a)

/-- R61, R108: no claim depends on the order: two runs of one job that differ in the free values alone (the fields of the
schedule, which are the model's own: log entry 1) end with the same memory and registers. -/
def Obligations.OrderOfWritesMakesNoDifference : Prop :=
  ∀ (s : State) (d : Sched) (j : Job) (t t' : State), Inv s → s.job = some j → j.stuck = false →
    s.host.rest = [] → AllAdmitted s j →
    core.run j.remaining.length s = .next t →
    core.run j.remaining.length { s with sched := d } = .next t' →
    { t' with sched := t.sched } = t
end

