-- ==== Sys2Proof/Laws/State.lean ====
section
/-! SUPPORT. What each update of the state leaves in each field, so that no later proof unfolds a record update. -/

namespace Sys2Proof.Machine

/-! ### State.setVar -/

@[simp] theorem State.setVar_params (s : State) (x : Nat) (v : HostVal) :
    (s.setVar x v).params = s.params := rfl

@[simp] theorem State.setVar_status (s : State) (x : Nat) (v : HostVal) :
    (s.setVar x v).status = s.status := rfl

@[simp] theorem State.setVar_width (s : State) (x : Nat) (v : HostVal) :
    (s.setVar x v).width = s.width := rfl

@[simp] theorem State.setVar_height (s : State) (x : Nat) (v : HostVal) :
    (s.setVar x v).height = s.height := rfl

@[simp] theorem State.setVar_srcAddr (s : State) (x : Nat) (v : HostVal) :
    (s.setVar x v).srcAddr = s.srcAddr := rfl

@[simp] theorem State.setVar_dstAddr (s : State) (x : Nat) (v : HostVal) :
    (s.setVar x v).dstAddr = s.dstAddr := rfl

@[simp] theorem State.setVar_outLen (s : State) (x : Nat) (v : HostVal) :
    (s.setVar x v).outLen = s.outLen := rfl

@[simp] theorem State.setVar_job (s : State) (x : Nat) (v : HostVal) :
    (s.setVar x v).job = s.job := rfl

@[simp] theorem State.setVar_mem (s : State) (x : Nat) (v : HostVal) :
    (s.setVar x v).mem = s.mem := rfl

@[simp] theorem State.setVar_host (s : State) (x : Nat) (v : HostVal) :
    (s.setVar x v).host = { s.host with vars := assocPut s.host.vars x v } := rfl

@[simp] theorem State.setVar_sched (s : State) (x : Nat) (v : HostVal) :
    (s.setVar x v).sched = s.sched := rfl

/-! ### State.setRest -/

@[simp] theorem State.setRest_params (s : State) (l : List HostStmt) :
    (s.setRest l).params = s.params := rfl

@[simp] theorem State.setRest_status (s : State) (l : List HostStmt) :
    (s.setRest l).status = s.status := rfl

@[simp] theorem State.setRest_width (s : State) (l : List HostStmt) :
    (s.setRest l).width = s.width := rfl

@[simp] theorem State.setRest_height (s : State) (l : List HostStmt) :
    (s.setRest l).height = s.height := rfl

@[simp] theorem State.setRest_srcAddr (s : State) (l : List HostStmt) :
    (s.setRest l).srcAddr = s.srcAddr := rfl

@[simp] theorem State.setRest_dstAddr (s : State) (l : List HostStmt) :
    (s.setRest l).dstAddr = s.dstAddr := rfl

@[simp] theorem State.setRest_outLen (s : State) (l : List HostStmt) :
    (s.setRest l).outLen = s.outLen := rfl

@[simp] theorem State.setRest_job (s : State) (l : List HostStmt) :
    (s.setRest l).job = s.job := rfl

@[simp] theorem State.setRest_mem (s : State) (l : List HostStmt) :
    (s.setRest l).mem = s.mem := rfl

@[simp] theorem State.setRest_host (s : State) (l : List HostStmt) :
    (s.setRest l).host = { s.host with rest := l } := rfl

@[simp] theorem State.setRest_sched (s : State) (l : List HostStmt) :
    (s.setRest l).sched = s.sched := rfl

/-! ### State.store -/

@[simp] theorem State.store_params (s : State) (a : Nat) (b : Byte) :
    (s.store a b).params = s.params := rfl

@[simp] theorem State.store_status (s : State) (a : Nat) (b : Byte) :
    (s.store a b).status = s.status := rfl

@[simp] theorem State.store_width (s : State) (a : Nat) (b : Byte) :
    (s.store a b).width = s.width := rfl

@[simp] theorem State.store_height (s : State) (a : Nat) (b : Byte) :
    (s.store a b).height = s.height := rfl

@[simp] theorem State.store_srcAddr (s : State) (a : Nat) (b : Byte) :
    (s.store a b).srcAddr = s.srcAddr := rfl

@[simp] theorem State.store_dstAddr (s : State) (a : Nat) (b : Byte) :
    (s.store a b).dstAddr = s.dstAddr := rfl

@[simp] theorem State.store_outLen (s : State) (a : Nat) (b : Byte) :
    (s.store a b).outLen = s.outLen := rfl

@[simp] theorem State.store_job (s : State) (a : Nat) (b : Byte) :
    (s.store a b).job = s.job := rfl

@[simp] theorem State.store_mem (s : State) (a : Nat) (b : Byte) :
    (s.store a b).mem = s.mem.write a b := rfl

@[simp] theorem State.store_host (s : State) (a : Nat) (b : Byte) :
    (s.store a b).host = s.host := rfl

@[simp] theorem State.store_sched (s : State) (a : Nat) (b : Byte) :
    (s.store a b).sched = s.sched := rfl

/-! ### State.reject -/

@[simp] theorem State.reject_params (s : State) (e : ErrCode) :
    (s.reject e).params = s.params := rfl

@[simp] theorem State.reject_status (s : State) (e : ErrCode) :
    (s.reject e).status = Status.rejected e := rfl

@[simp] theorem State.reject_width (s : State) (e : ErrCode) :
    (s.reject e).width = s.width := rfl

@[simp] theorem State.reject_height (s : State) (e : ErrCode) :
    (s.reject e).height = s.height := rfl

@[simp] theorem State.reject_srcAddr (s : State) (e : ErrCode) :
    (s.reject e).srcAddr = s.srcAddr := rfl

@[simp] theorem State.reject_dstAddr (s : State) (e : ErrCode) :
    (s.reject e).dstAddr = s.dstAddr := rfl

@[simp] theorem State.reject_outLen (s : State) (e : ErrCode) :
    (s.reject e).outLen = 0#32 := rfl

@[simp] theorem State.reject_job (s : State) (e : ErrCode) :
    (s.reject e).job = s.job := rfl

@[simp] theorem State.reject_mem (s : State) (e : ErrCode) :
    (s.reject e).mem = s.mem := rfl

@[simp] theorem State.reject_host (s : State) (e : ErrCode) :
    (s.reject e).host = s.host := rfl

@[simp] theorem State.reject_sched (s : State) (e : ErrCode) :
    (s.reject e).sched = s.sched := rfl

/-! ### State.finish -/

@[simp] theorem State.finish_params (s : State) :
    (s.finish).params = s.params := rfl

@[simp] theorem State.finish_status (s : State) :
    (s.finish).status = Status.finished := rfl

@[simp] theorem State.finish_width (s : State) :
    (s.finish).width = s.width := rfl

@[simp] theorem State.finish_height (s : State) :
    (s.finish).height = s.height := rfl

@[simp] theorem State.finish_srcAddr (s : State) :
    (s.finish).srcAddr = s.srcAddr := rfl

@[simp] theorem State.finish_dstAddr (s : State) :
    (s.finish).dstAddr = s.dstAddr := rfl

@[simp] theorem State.finish_outLen (s : State) :
    (s.finish).outLen = s.outLen := rfl

@[simp] theorem State.finish_job (s : State) :
    (s.finish).job = none := rfl

@[simp] theorem State.finish_mem (s : State) :
    (s.finish).mem = s.mem := rfl

@[simp] theorem State.finish_host (s : State) :
    (s.finish).host = s.host := rfl

@[simp] theorem State.finish_sched (s : State) :
    (s.finish).sched = s.sched := rfl

/-! ### State.blockReset -/

@[simp] theorem State.blockReset_params (s : State) :
    (s.blockReset).params = s.params := rfl

@[simp] theorem State.blockReset_status (s : State) :
    (s.blockReset).status = Status.cleared := rfl

@[simp] theorem State.blockReset_width (s : State) :
    (s.blockReset).width = 1920#16 := rfl

@[simp] theorem State.blockReset_height (s : State) :
    (s.blockReset).height = 1080#16 := rfl

@[simp] theorem State.blockReset_srcAddr (s : State) :
    (s.blockReset).srcAddr = 0#32 := rfl

@[simp] theorem State.blockReset_dstAddr (s : State) :
    (s.blockReset).dstAddr = 0#32 := rfl

@[simp] theorem State.blockReset_outLen (s : State) :
    (s.blockReset).outLen = 0#32 := rfl

@[simp] theorem State.blockReset_job (s : State) :
    (s.blockReset).job = none := rfl

@[simp] theorem State.blockReset_mem (s : State) :
    (s.blockReset).mem = s.mem := rfl

@[simp] theorem State.blockReset_host (s : State) :
    (s.blockReset).host = s.host := rfl

@[simp] theorem State.blockReset_sched (s : State) :
    (s.blockReset).sched = s.sched := rfl

/-! ### State.advance -/

@[simp] theorem State.advance_params (s : State) (l : List HostStmt) :
    (s.advance l).params = s.params := rfl

@[simp] theorem State.advance_status (s : State) (l : List HostStmt) :
    (s.advance l).status = s.status := rfl

@[simp] theorem State.advance_width (s : State) (l : List HostStmt) :
    (s.advance l).width = s.width := rfl

@[simp] theorem State.advance_height (s : State) (l : List HostStmt) :
    (s.advance l).height = s.height := rfl

@[simp] theorem State.advance_srcAddr (s : State) (l : List HostStmt) :
    (s.advance l).srcAddr = s.srcAddr := rfl

@[simp] theorem State.advance_dstAddr (s : State) (l : List HostStmt) :
    (s.advance l).dstAddr = s.dstAddr := rfl

@[simp] theorem State.advance_outLen (s : State) (l : List HostStmt) :
    (s.advance l).outLen = s.outLen := rfl

@[simp] theorem State.advance_job (s : State) (l : List HostStmt) :
    (s.advance l).job = s.job := rfl

@[simp] theorem State.advance_mem (s : State) (l : List HostStmt) :
    (s.advance l).mem = s.mem := rfl

@[simp] theorem State.advance_host (s : State) (l : List HostStmt) :
    (s.advance l).host = { s.host with rest := l } := rfl

@[simp] theorem State.advance_sched (s : State) (l : List HostStmt) :
    (s.advance l).sched = s.sched.tick := rfl

/-! ### State.withFetchWord -/

@[simp] theorem State.withFetchWord_params (s : State) (n w : Nat) :
    (s.withFetchWord n w).params = s.params := rfl

@[simp] theorem State.withFetchWord_status (s : State) (n w : Nat) :
    (s.withFetchWord n w).status = s.status := rfl

@[simp] theorem State.withFetchWord_width (s : State) (n w : Nat) :
    (s.withFetchWord n w).width = s.width := rfl

@[simp] theorem State.withFetchWord_height (s : State) (n w : Nat) :
    (s.withFetchWord n w).height = s.height := rfl

@[simp] theorem State.withFetchWord_srcAddr (s : State) (n w : Nat) :
    (s.withFetchWord n w).srcAddr = s.srcAddr := rfl

@[simp] theorem State.withFetchWord_dstAddr (s : State) (n w : Nat) :
    (s.withFetchWord n w).dstAddr = s.dstAddr := rfl

@[simp] theorem State.withFetchWord_outLen (s : State) (n w : Nat) :
    (s.withFetchWord n w).outLen = s.outLen := rfl

@[simp] theorem State.withFetchWord_job (s : State) (n w : Nat) :
    (s.withFetchWord n w).job = s.job := rfl

@[simp] theorem State.withFetchWord_mem (s : State) (n w : Nat) :
    (s.withFetchWord n w).mem = s.mem := rfl

@[simp] theorem State.withFetchWord_host (s : State) (n w : Nat) :
    (s.withFetchWord n w).host = { s.host with rest := .wr .cmd (tableWord n w) :: s.host.rest } := rfl

@[simp] theorem State.withFetchWord_sched (s : State) (n w : Nat) :
    (s.withFetchWord n w).sched = { s.sched with burst := s.sched.burst + 1 } := rfl

/-! ### Whether a job is active -/

@[simp] theorem State.busy_eq_false (s : State) : s.busy = false ↔ s.job = none := by
  cases h : s.job <;> simp [State.busy, h]

@[simp] theorem State.busy_eq_true (s : State) : s.busy = true ↔ ∃ j, s.job = some j := by
  cases h : s.job <;> simp [State.busy, h]

/-! ### The register offsets -/

@[simp] theorem regAt_regOffset (r : Reg) : regAt (regOffset r) = some r := by cases r <;> rfl

@[simp] theorem readOffset_regOffset (s : State) (r : Reg) : readOffset s (regOffset r) = readReg s r := by
  simp [readOffset]

end Sys2Proof.Machine
end

