-- ==== Sys2Proof/Laws/Assembler.lean ====
section
/-! SUPPORT. The laws of the assembler: a program is assembled line by line, and the labels of `WAIT` are its own
(spec/30_encoding.md R87, R88). -/

namespace Sys2Proof.Machine

/-- The labels a list of statements defines or jumps to. -/
def namesOf (p : List HostStmt) : List Nat := p.flatMap (fun st => st.defines ++ st.jumpsTo)

theorem not_mem_namesOf_append {l : Nat} {p q : List HostStmt} :
    l ∉ namesOf (p ++ q) ↔ l ∉ namesOf p ∧ l ∉ namesOf q := by simp [namesOf]

theorem not_mem_namesOf {l : Nat} {p : List HostStmt} :
    l ∉ namesOf p ↔ ∀ st ∈ p, l ∉ st.defines ∧ l ∉ st.jumpsTo := by simp [namesOf]

/-- A program is assembled line by line. -/
theorem assembleFrom_cons {l : Nat} {st : AsmStmt} {p : List AsmStmt} {q : List HostStmt}
    (h : assembleFrom l (st :: p) = some q) :
    ∃ a b, expandStmt l st = some a ∧ assembleFrom (l + 1) p = some b ∧ q = a ++ b := by
  unfold assembleFrom at h
  split at h
  · cases h; exact ⟨_, _, ‹_›, ‹_›, rfl⟩
  · cases h

theorem assembleFrom_append {l : Nat} {p p' : List AsmStmt} {q : List HostStmt}
    (h : assembleFrom l (p ++ p') = some q) :
    ∃ a b, assembleFrom l p = some a ∧ assembleFrom (l + p.length) p' = some b ∧ q = a ++ b := by
  induction p generalizing l q with
  | nil => exact ⟨[], q, rfl, h, rfl⟩
  | cons st p ih =>
    obtain ⟨a, b, ha, hb, rfl⟩ := assembleFrom_cons h
    obtain ⟨a', b', ha', hb', rfl⟩ := ih hb
    refine ⟨a ++ a', b', by simp [assembleFrom, ha, ha'], ?_, by simp⟩
    rwa [List.length_cons, Nat.add_comm p.length 1, ← Nat.add_assoc]

/-- A line's expansion names only the label the line names and, for a `WAIT`, the one it is given. -/
theorem namesOf_expandStmt {l n : Nat} {st : AsmStmt} {a : List HostStmt} (h : expandStmt l st = some a)
    (hn : n ∈ namesOf a) : n = labelNo st ∨ n = l := by
  have key : ∀ {b : List HostStmt}, some b = some a → n ∈ namesOf b := by rintro b ⟨⟩; exact hn
  cases st with
  | wr r k =>
    obtain ⟨v, -, rfl⟩ := Option.map_eq_some_iff.1 h
    simp [namesOf, HostStmt.defines, HostStmt.jumpsTo] at hn
  | rd r x => simpa [namesOf, HostStmt.defines, HostStmt.jumpsTo] using key h
  | mw a bs =>
    simp only [expandStmt] at h
    split at h <;> cases h
    simp [namesOf, HostStmt.defines, HostStmt.jumpsTo] at hn
  | mr a k x =>
    simp only [expandStmt] at h
    split at h <;> cases h
    simp [namesOf, HostStmt.defines, HostStmt.jumpsTo] at hn
  | label k => exact .inl (by simpa [namesOf, labelNo, HostStmt.defines, HostStmt.jumpsTo] using key h)
  | ifGoto x bit v k => exact .inl (by simpa [namesOf, labelNo, HostStmt.defines, HostStmt.jumpsTo] using key h)
  | encode i => simpa [namesOf, HostStmt.defines, HostStmt.jumpsTo] using key h
  | encodeYuv420 => simpa [namesOf, HostStmt.defines, HostStmt.jumpsTo] using key h
  | setup w h' src dst =>
    simp only [expandStmt] at h
    split at h <;> cases h
    simp [namesOf, HostStmt.defines, HostStmt.jumpsTo] at hn
  | wait x => exact .inr (by simpa [namesOf, waitLoop, HostStmt.defines, HostStmt.jumpsTo] using key h)

/-- An assembled program names the labels of its lines and, for its `WAIT`s, numbers from `l` on. -/
theorem namesOf_assembleFrom {l n : Nat} {p : List AsmStmt} {q : List HostStmt} (h : assembleFrom l p = some q)
    (hn : n ∈ namesOf q) : n ∈ p.map labelNo ∨ l ≤ n ∧ n < l + p.length := by
  induction p generalizing l q with
  | nil => cases h; simp [namesOf] at hn
  | cons st p ih =>
    obtain ⟨a, b, ha, hb, rfl⟩ := assembleFrom_cons h
    simp only [namesOf, List.flatMap_append, List.mem_append] at hn
    simp only [List.map_cons, List.mem_cons, List.length_cons]
    rcases hn with hn | hn
    · rcases namesOf_expandStmt ha hn with rfl | rfl
      · exact .inl (.inl rfl)
      · right; omega
    · rcases ih hb hn with hm | hm
      · exact .inl (.inr hm)
      · right; omega

/-- The fresh label is greater than every label the program names. -/
theorem lt_freshLabel {n : Nat} {p : List AsmStmt} (h : n ∈ p.map labelNo) : n < freshLabel p := by
  have key : ∀ ns : List Nat, n ∈ ns → n ≤ ns.foldr max 0 := by
    intro ns
    induction ns with
    | nil => simp
    | cons m ns ih =>
      intro hm
      rcases List.mem_cons.1 hm with rfl | hm
      · exact le_max_left _ _
      · exact (ih hm).trans (le_max_right _ _)
  exact Nat.lt_succ_of_le (key _ h)

/-- A label that the statements before its definition do not define leads to what follows the definition. -/
theorem afterLabel_append {l : Nat} {p q : List HostStmt} (h : l ∉ namesOf p) :
    afterLabel l (p ++ .label l :: q) = some q := by
  induction p with
  | nil => simp [afterLabel]
  | cons st p ih =>
    rw [show st :: p = [st] ++ p from rfl, not_mem_namesOf_append] at h
    cases st with
    | label k =>
      have : k ≠ l := by
        rintro rfl
        exact h.1 (by simp [namesOf, HostStmt.defines])
      simp [afterLabel, this, ih h.2]
    | _ => simpa [afterLabel] using ih h.2

/-- A `WAIT` in an assembled program is its loop under a label no other statement names. -/
theorem assemble_wait {p p' : List AsmStmt} {x : Nat} {q : List HostStmt}
    (h : assemble (p ++ .wait x :: p') = some q) :
    ∃ (q1 q2 : List HostStmt) (l : Nat), q = q1 ++ waitLoop x l ++ q2 ∧
      assembleFrom (freshLabel (p ++ .wait x :: p')) p = some q1 ∧ l ∉ namesOf (q1 ++ q2) := by
  unfold assemble at h
  obtain ⟨a, b, ha, hb, rfl⟩ := assembleFrom_append h
  obtain ⟨c, d, hc, hd, rfl⟩ := assembleFrom_cons hb
  cases hc
  refine ⟨a, d, freshLabel (p ++ .wait x :: p') + p.length, by simp, ha, ?_⟩
  have old : ∀ n, n ∈ (p ++ .wait x :: p').map labelNo → n < freshLabel (p ++ .wait x :: p') :=
    fun n hn => lt_freshLabel hn
  rw [not_mem_namesOf_append]
  constructor
  · intro hn
    rcases namesOf_assembleFrom ha hn with hm | hm
    · have := old _ (by rw [List.map_append]; exact List.mem_append_left _ hm)
      omega
    · omega
  · intro hn
    rcases namesOf_assembleFrom hd hn with hm | hm
    · have := old _ (by rw [List.map_append, List.map_cons]; exact List.mem_append_right _ (List.mem_cons_of_mem _ hm))
      omega
    · omega

end Sys2Proof.Machine
end

