-- ==== Sys2Proof/Laws/ColorTransform.lean ====
section
/-! SUPPORT. The colour transform's value as an integer, and its range (spec/40_color_transform.md R106, R107, R111). -/

namespace Sys2Proof.Machine

theorem le_clamp {v lo hi : Int} (h : lo ≤ hi) : lo ≤ clamp v lo hi := by unfold clamp; omega

theorem clamp_le (v lo hi : Int) : clamp v lo hi ≤ hi := by unfold clamp; omega

theorem clamp_of_mem {v lo hi : Int} (h1 : lo ≤ v) (h2 : v ≤ hi) : clamp v lo hi = v := by unfold clamp; omega

theorem limitTop_bounds (ch : Channel) : 235 ≤ limitTop ch ∧ limitTop ch ≤ 240 := by cases ch <;> decide

theorem ctValue_bounds (ties : List TiePoint) (ch : Channel) (r g b : Byte) :
    16 ≤ ctValue ties ch r g b ∧ ctValue ties ch r g b ≤ limitTop ch :=
  ⟨le_clamp (by have := limitTop_bounds ch; omega), clamp_le _ _ _⟩

/-- The sample is the integer value: it fits 8 bits. -/
theorem ct_toNat (ties : List TiePoint) (ch : Channel) (r g b : Byte) :
    ((ct ties ch r g b).toNat : Int) = ctValue ties ch r g b := by
  have h := ctValue_bounds ties ch r g b
  have ht := limitTop_bounds ch
  unfold ct
  rw [BitVec.toNat_ofInt]
  have : ctValue ties ch r g b % ((2 ^ 8 : Nat) : Int) = ctValue ties ch r g b :=
    Int.emod_eq_of_lt (by omega) (by norm_num; omega)
  rw [this]
  omega

theorem ct_bounds (ties : List TiePoint) (ch : Channel) (r g b : Byte) :
    16 ≤ (ct ties ch r g b).toNat ∧ ((ct ties ch r g b).toNat : Int) ≤ limitTop ch := by
  have h := ctValue_bounds ties ch r g b
  rw [← ct_toNat] at h
  omega

@[simp] theorem tie_nil (ch : Channel) (r g b : Byte) : tie [] ch r g b = 0 := by simp [tie]

theorem fullClip_bounds (s : Int) : 0 ≤ fullClip s ∧ fullClip s ≤ 255000000 :=
  ⟨le_clamp (by decide), clamp_le _ _ _⟩

/-- With `CT_TIE_DOWN` false the limited-range clamp is never active (R106). -/
theorem ctValue_nil (ch : Channel) (r g b : Byte) :
    ctValue [] ch r g b = fullClip (acc ch r g b) * span ch / 255000000 + 16 := by
  have h := fullClip_bounds (acc ch r g b)
  unfold ctValue quantised
  simp only [tie_nil, Config.fs, Int.sub_zero]
  cases ch <;> simp only [span, limitTop, Config.spanY, Config.spanC] <;>
    refine clamp_of_mem ?_ ?_ <;> omega

end Sys2Proof.Machine
end

