-- ==== Sys2Proof/Laws/Command.lean ====
section
/-! SUPPORT. What issuing a command word can do (spec/42_layout_packers.md R150) and what the contract on its ranges says of
addresses (spec/20_memory.md R51 to R55, R59). -/

namespace Sys2Proof.Machine

/-- Every command is issued by the one shared operation with its own format. -/
theorem exec_eq_issue (i : Instr) (s : State) : exec i s = issue i.format s := by cases i <;> rfl

/-! ### Ranges -/

theorem inRange_iff (b n a : Nat) : inRange b n a = true ↔ b ≤ a ∧ a < b + n := by simp [inRange]

/-- Two stretches meet exactly when some address is in both. -/
theorem rangesMeet_iff (a n b m : Nat) :
    rangesMeet a n b m = true ↔ ∃ x, inRange a n x = true ∧ inRange b m x = true := by
  simp only [rangesMeet, inRange_iff, Bool.and_eq_true, bne_iff_ne, decide_eq_true_eq]
  constructor
  · rintro ⟨⟨⟨h1, h2⟩, h3⟩, h4⟩
    exact ⟨max a b, by omega⟩
  · rintro ⟨x, h1, h2⟩
    omega

theorem meetsAny_iff (rs : List Region) (a n : Nat) :
    meetsAny rs a n = true ↔ ∃ x, inRange a n x = true ∧ hasAny rs x = true := by
  simp only [meetsAny, hasAny, regionHas, List.any_eq_true, rangesMeet_iff]
  constructor
  · rintro ⟨r, hr, x, h1, h2⟩; exact ⟨x, h1, r, hr, h2⟩
  · rintro ⟨x, h1, r, hr, h2⟩; exact ⟨r, hr, x, h1, h2⟩

/-- The contract is kept exactly when neither range passes the top, they share no address, and neither reaches the
register window or a location with side effects. -/
theorem contractBreach_none_iff (p : Params) (a n b m : Nat) :
    contractBreach p a n b m = none ↔
      a + n ≤ 4294967296 ∧ b + m ≤ 4294967296 ∧ rangesMeet a n b m = false ∧
      meetsAny (windowRegions p) a n = false ∧ meetsAny (windowRegions p) b m = false ∧
      meetsAny p.sideEffects a n = false ∧ meetsAny p.sideEffects b m = false := by
  unfold contractBreach
  simp only [Config.memSize]
  split
  · simp_all only [Bool.or_eq_true, decide_eq_true_eq, reduceCtorEq, false_iff]; omega
  · split
    · simp_all
    · split
      · simp_all only [Bool.or_eq_true, reduceCtorEq, false_iff]; rintro ⟨-, -, -, h1, h2, -⟩; simp_all
      · split
        · simp_all only [Bool.or_eq_true, reduceCtorEq, false_iff]; rintro ⟨-, -, -, -, -, h1, h2⟩; simp_all
        · simp_all

/-- A job whose contract is kept has no address in both ranges. -/
theorem contract_disjoint {p : Params} {a n b m x : Nat} (h : contractBreach p a n b m = none)
    (hx : inRange a n x = true) : inRange b m x = false := by
  rw [contractBreach_none_iff] at h
  by_contra hc
  have := (rangesMeet_iff a n b m).2 ⟨x, hx, by simpa using hc⟩
  simp [this] at h

/-! ### Lengths -/

/-- A frame without pixels has no output. -/
theorem outputLen_of_empty {w h : Nat} (fmt : PixelFormat) (he : w = 0 ∨ h = 0) : outputLen w h fmt = 0 := by
  rcases he with rfl | rfl <;> cases fmt <;> simp [outputLen]

/-- A frame with a pixel has an output of at least as many bytes. -/
theorem le_outputLen (w h : Nat) (fmt : PixelFormat) : w * h ≤ outputLen w h fmt := by
  cases fmt <;> simp only [outputLen] <;> omega

theorem outputLen_pos {w h : Nat} (fmt : PixelFormat) (hw : w ≠ 0) (hh : h ≠ 0) : outputLen w h fmt ≠ 0 := by
  have := le_outputLen w h fmt
  have : 0 < w * h := Nat.mul_pos (by omega) (by omega)
  omega

/-- The output of a job whose contract is kept is shorter than 2^32 bytes (spec/10_state.md R32). -/
theorem outputLen_lt {p : Params} {src dst w h : Nat} {fmt : PixelFormat}
    (hb : contractBreach p src (sourceLen w h) dst (outputLen w h fmt) = none) :
    outputLen w h fmt < 4294967296 := by
  by_cases he : w = 0 ∨ h = 0
  · rw [outputLen_of_empty fmt he]; decide
  · rw [not_or] at he
    have hp : 0 < w * h := Nat.mul_pos (by omega) (by omega)
    rw [contractBreach_none_iff] at hb
    obtain ⟨h1, h2, h3, -⟩ := hb
    simp only [sourceLen] at h1 h3
    by_contra hge
    have hm : rangesMeet src (3 * (w * h)) dst (outputLen w h fmt) = true :=
      (rangesMeet_iff _ _ _ _).2 ⟨src, by rw [inRange_iff]; omega, by rw [inRange_iff]; omega⟩
    simp [hm] at h3

/-! ### Issuing -/

theorem issue_busy {s : State} (fmt : PixelFormat) (h : s.busy = true) : issue fmt s = .next s := by
  simp [issue, h]

theorem issue_bad {s : State} {fmt : PixelFormat} (h : s.job = none)
    (hd : badDimensions fmt s.width.toNat s.height.toNat = true) :
    issue fmt s = .next (s.reject .invalidDimensions) := by
  simp [issue, (State.busy_eq_false s).2 h, operands, hd]

theorem issue_breach {s : State} {fmt : PixelFormat} {r : Refusal} (h : s.job = none)
    (hd : badDimensions fmt s.width.toNat s.height.toNat = false)
    (hb : (operands s).breach s.params fmt = some r) : issue fmt s = .refused r := by
  have hd' : badDimensions fmt (operands s).w (operands s).h = false := hd
  simp [issue, (State.busy_eq_false s).2 h, hd', hb]

theorem issue_accept {s : State} {fmt : PixelFormat} (h : s.job = none)
    (hd : badDimensions fmt s.width.toNat s.height.toNat = false)
    (hb : (operands s).breach s.params fmt = none) : issue fmt s = .next (s.accept fmt (operands s)) := by
  have hd' : badDimensions fmt (operands s).w (operands s).h = false := hd
  simp [issue, (State.busy_eq_false s).2 h, hd', hb]

theorem accept_empty {s : State} {fmt : PixelFormat} {o : Operands} (h : outputLen o.w o.h fmt = 0) :
    s.accept fmt o = { s with status := Status.finished, outLen := 0#32, job := none } := by
  simp [State.accept, h, State.finish]

theorem accept_some {s : State} {fmt : PixelFormat} {o : Operands} (h : outputLen o.w o.h fmt ≠ 0) :
    s.accept fmt o =
      { s with
        status := Status.cleared, outLen := BitVec.ofNat 32 (outputLen o.w o.h fmt)
        job := some (o.job fmt), sched := s.sched.redraw } := by
  simp [State.accept, h]

/-- Everything issuing a command can do: nothing while a job is active; else a rejection, a refusal or an
acceptance. -/
theorem issue_cases (fmt : PixelFormat) (s : State) :
    (s.busy = true ∧ issue fmt s = .next s) ∨
    (s.job = none ∧ badDimensions fmt s.width.toNat s.height.toNat = true ∧
      issue fmt s = .next (s.reject .invalidDimensions)) ∨
    (s.job = none ∧ badDimensions fmt s.width.toNat s.height.toNat = false ∧
      ∃ r, (operands s).breach s.params fmt = some r ∧ issue fmt s = .refused r) ∨
    (s.job = none ∧ badDimensions fmt s.width.toNat s.height.toNat = false ∧
      (operands s).breach s.params fmt = none ∧ issue fmt s = .next (s.accept fmt (operands s))) := by
  by_cases hb : s.busy = true
  · exact .inl ⟨hb, issue_busy fmt hb⟩
  · have hj : s.job = none := (State.busy_eq_false s).1 (Bool.not_eq_true _ ▸ hb)
    right
    cases hd : badDimensions fmt s.width.toNat s.height.toNat
    · right
      cases hr : (operands s).breach s.params fmt with
      | none => exact .inr ⟨hj, rfl, rfl, issue_accept hj hd hr⟩
      | some r => exact .inl ⟨hj, rfl, r, rfl, issue_breach hj hd hr⟩
    · exact .inl ⟨hj, rfl, issue_bad hj hd⟩

theorem badDimensions_iff (fmt : PixelFormat) (w h : Nat) :
    badDimensions fmt w h = false ↔ (subsampled fmt = true → w % 2 = 0 ∧ h % 2 = 0) := by
  cases hs : subsampled fmt <;> simp [badDimensions, hs]

end Sys2Proof.Machine
end

