-- ==== Sys2Proof/Laws/Decode.lean ====
section
/-! SUPPORT. The laws of the decoder and of the byte lanes of a register word (spec/30_encoding.md R80, R86,
spec/20_memory.md R56). -/

namespace Sys2Proof

theorem decodeWord_encodeWord (i : Instr) : decodeWord (encodeWord i) = .ok i := by cases i <;> rfl

theorem encodeWord_of_decodeWord {c : Word} {i : Instr} (h : decodeWord c = .ok i) : c = encodeWord i := by
  unfold decodeWord at h
  split at h <;> first
    | (cases h; apply BitVec.eq_of_toNat_eq; simpa [encodeWord] using ‹_›)
    | cases h

theorem decodeWord_ok_iff (c : Word) (i : Instr) : decodeWord c = .ok i ↔ c = encodeWord i :=
  ⟨encodeWord_of_decodeWord, fun h => h ▸ decodeWord_encodeWord i⟩

theorem decodeWord_error_iff (c : Word) (e : DecodeError) :
    decodeWord c = .error e ↔ 7 < c.toNat ∧ e = .invalidFormatName c := by
  unfold decodeWord
  split <;> simp_all
  rename_i h0 h1 h2 h3 h4 h5 h6 h7
  have : 7 < c.toNat := by omega
  simp [this, eq_comm]

theorem laneOf_getLsbD (w : Word) (k n : Nat) (hn : n < 8) : (laneOf w k).getLsbD n = w.getLsbD (8 * k + n) := by
  simp [laneOf, BitVec.getLsbD_ushiftRight, hn]

theorem wordOfLanes_laneOf (w : Word) : wordOfLanes (laneOf w 0) (laneOf w 1) (laneOf w 2) (laneOf w 3) = w := by
  apply BitVec.eq_of_getLsbD_eq
  intro n hn
  simp only [wordOfLanes, BitVec.getLsbD_append]
  by_cases h1 : n < 8
  · rw [if_pos h1, laneOf_getLsbD _ _ _ h1, show 8 * 0 + n = n by omega]
  · rw [if_neg h1]
    by_cases h2 : n - 8 < 8
    · rw [if_pos h2, laneOf_getLsbD _ _ _ h2, show 8 * 1 + (n - 8) = n by omega]
    · rw [if_neg h2]
      by_cases h3 : n - 8 - 8 < 8
      · rw [if_pos h3, laneOf_getLsbD _ _ _ h3, show 8 * 2 + (n - 8 - 8) = n by omega]
      · rw [if_neg h3, laneOf_getLsbD _ _ _ (by omega), show 8 * 3 + (n - 8 - 8 - 8) = n by omega]

theorem bytesOfWord_wordOfLanes (b0 b1 b2 b3 : Byte) : bytesOfWord (wordOfLanes b0 b1 b2 b3) = [b0, b1, b2, b3] := by
  have h : ∀ k, k < 4 → ∀ n, n < 8 → (laneOf (wordOfLanes b0 b1 b2 b3) k).getLsbD n =
      ([b0, b1, b2, b3].getD k 0).getLsbD n := by
    intro k hk n hn
    rw [laneOf_getLsbD _ _ _ hn]
    simp only [wordOfLanes, BitVec.getLsbD_append]
    rcases (show k = 0 ∨ k = 1 ∨ k = 2 ∨ k = 3 by omega) with rfl | rfl | rfl | rfl
    · simp [hn]
    · simp [hn]
    · simp [hn, show ¬ 16 + n < 8 by omega, show ¬ 16 + n - 8 < 8 by omega, show 16 + n - 8 - 8 = n by omega]
    · simp [hn, show ¬ 24 + n < 8 by omega, show ¬ 24 + n - 8 < 8 by omega, show ¬ 24 + n - 8 - 8 < 8 by omega,
        show 24 + n - 8 - 8 - 8 = n by omega]
  unfold bytesOfWord
  congr 1
  · exact BitVec.eq_of_getLsbD_eq (fun n hn => h 0 (by omega) n hn)
  congr 1
  · exact BitVec.eq_of_getLsbD_eq (fun n hn => h 1 (by omega) n hn)
  congr 1
  · exact BitVec.eq_of_getLsbD_eq (fun n hn => h 2 (by omega) n hn)
  congr 1
  · exact BitVec.eq_of_getLsbD_eq (fun n hn => h 3 (by omega) n hn)

end Sys2Proof
end

