-- ==== Sys2Proof/Laws/Memory.lean ====
section
/-! SUPPORT. The laws of memory: what a read after a write gives, that a write keeps the canonical form, and that the form
is one (log entry 3). -/

namespace Sys2Proof.Machine

section Assoc

variable {α : Type}

theorem assocGet_put_same (m : List (Nat × α)) (a : Nat) (x : α) : assocGet (assocPut m a x) a = some x := by
  induction m with
  | nil => simp [assocPut, assocGet]
  | cons c t ih =>
    obtain ⟨k, v⟩ := c
    simp only [assocPut]
    split
    · simp [assocGet]
    · split
      · simp [assocGet]
      · simp [assocGet, *]

theorem assocGet_put_other (m : List (Nat × α)) (a c : Nat) (x : α) (h : c ≠ a) :
    assocGet (assocPut m a x) c = assocGet m c := by
  induction m with
  | nil => simp [assocPut, assocGet, h]
  | cons d t ih =>
    obtain ⟨k, v⟩ := d
    simp only [assocPut]
    split
    · simp [assocGet, h]
    · split
      · subst_vars; simp [assocGet, h]
      · simp [assocGet, ih]

theorem assocGet_erase_same (m : List (Nat × α)) (a : Nat) : assocGet (assocErase m a) a = none := by
  induction m with
  | nil => rfl
  | cons d t ih =>
    obtain ⟨k, v⟩ := d
    simp only [assocErase]
    split
    · exact ih
    · simp [assocGet, *]

theorem assocGet_erase_other (m : List (Nat × α)) (a c : Nat) (h : c ≠ a) :
    assocGet (assocErase m a) c = assocGet m c := by
  induction m with
  | nil => rfl
  | cons d t ih =>
    obtain ⟨k, v⟩ := d
    simp only [assocErase]
    split
    · subst_vars; simp [assocGet, h, ih]
    · simp [assocGet, ih]

theorem mem_assocPut {m : List (Nat × α)} {a : Nat} {x : α} {c : Nat × α} (h : c ∈ assocPut m a x) :
    c = (a, x) ∨ c ∈ m := by
  induction m with
  | nil => simpa [assocPut] using h
  | cons d t ih =>
    obtain ⟨k, v⟩ := d
    simp only [assocPut] at h
    split at h
    · simpa using h
    · split at h
      · simp only [List.mem_cons] at h ⊢; tauto
      · simp only [List.mem_cons] at h ⊢; tauto

theorem assocErase_sublist (m : List (Nat × α)) (a : Nat) : (assocErase m a).Sublist m := by
  induction m with
  | nil => exact .refl _
  | cons d t ih =>
    obtain ⟨k, v⟩ := d
    simp only [assocErase]
    split
    · exact ih.cons _
    · exact ih.cons_cons _

/-- Setting a key keeps the keys strictly rising. -/
theorem assocPut_rising (m : List (Nat × α)) (a : Nat) (x : α) (h : m.Pairwise (fun c d => c.1 < d.1)) :
    (assocPut m a x).Pairwise (fun c d => c.1 < d.1) := by
  induction m with
  | nil => simp [assocPut]
  | cons d t ih =>
    obtain ⟨k, v⟩ := d
    rw [List.pairwise_cons] at h
    simp only [assocPut]
    split
    · refine List.pairwise_cons.2 ⟨?_, List.pairwise_cons.2 h⟩
      intro c hc
      rcases List.mem_cons.1 hc with rfl | hc
      · assumption
      · exact lt_trans ‹a < k› (h.1 c hc)
    · split
      · subst_vars; exact List.pairwise_cons.2 h
      · refine List.pairwise_cons.2 ⟨?_, ih h.2⟩
        intro c hc
        rcases mem_assocPut hc with rfl | hc
        · show k < a; omega
        · exact h.1 c hc

/-- In a strictly rising list a key below every key has no value. -/
theorem assocGet_none_of_lt (m : List (Nat × α)) (a : Nat) (h : ∀ c ∈ m, a < c.1) : assocGet m a = none := by
  induction m with
  | nil => rfl
  | cons d t ih =>
    obtain ⟨k, v⟩ := d
    have hk : a < k := h (k, v) (by simp)
    simp [assocGet, Nat.ne_of_lt hk, ih (fun c hc => h c (by simp [hc]))]

/-- Strictly rising lists with the same values are equal. -/
theorem assoc_ext (m m' : List (Nat × α)) (h : m.Pairwise (fun c d => c.1 < d.1))
    (h' : m'.Pairwise (fun c d => c.1 < d.1)) (he : ∀ a, assocGet m a = assocGet m' a) : m = m' := by
  induction m generalizing m' with
  | nil =>
    cases m' with
    | nil => rfl
    | cons d t => have := he d.1; simp [assocGet] at this
  | cons c t ih =>
    cases m' with
    | nil => have := he c.1; simp [assocGet] at this
    | cons d t' =>
      obtain ⟨k, v⟩ := c
      obtain ⟨k', v'⟩ := d
      rw [List.pairwise_cons] at h h'
      have hk : k = k' := by
        rcases Nat.lt_trichotomy k k' with hlt | heq | hgt
        · have := he k
          rw [assocGet_none_of_lt ((k', v') :: t') k] at this
          · simp [assocGet] at this
          · intro c hc
            rcases List.mem_cons.1 hc with rfl | hc
            · exact hlt
            · exact lt_trans hlt (h'.1 c hc)
        · exact heq
        · have := he k'
          rw [assocGet_none_of_lt ((k, v) :: t) k'] at this
          · simp [assocGet] at this
          · intro c hc
            rcases List.mem_cons.1 hc with rfl | hc
            · exact hgt
            · exact lt_trans hgt (h.1 c hc)
      subst hk
      have hv : v = v' := by have := he k; simpa [assocGet] using this
      subst hv
      congr 1
      refine ih t' h.2 h'.2 (fun a => ?_)
      by_cases ha : a = k
      · subst ha
        rw [assocGet_none_of_lt t a h.1, assocGet_none_of_lt t' a h'.1]
      · have := he a; simpa [assocGet, ha] using this

end Assoc

@[simp] theorem Memory.read_write_same (m : Memory) (a : Nat) (b : Byte) : (Memory.write m a b).read a = b := by
  unfold Memory.write Memory.read
  split
  · rename_i h; simp [assocGet_erase_same, h]
  · simp [assocGet_put_same]

theorem Memory.read_write_other (m : Memory) (a c : Nat) (b : Byte) (h : c ≠ a) :
    (Memory.write m a b).read c = Memory.read m c := by
  unfold Memory.write Memory.read
  split
  · simp [assocGet_erase_other m a c h]
  · simp [assocGet_put_other m a c b h]

/-- A byte after a write: the written one at its address, the old one elsewhere. -/
theorem Memory.read_write (m : Memory) (a c : Nat) (b : Byte) :
    (Memory.write m a b).read c = if c = a then b else Memory.read m c := by
  split
  · subst_vars; simp
  · exact Memory.read_write_other m a c b ‹_›

theorem Memory.wf_nil : Memory.wf [] := by simp [Memory.wf]

/-- A write inside the memory space keeps the canonical form. -/
theorem Memory.wf_write {m : Memory} {a : Nat} (b : Byte) (h : Memory.wf m) (ha : a < Config.memSize) :
    Memory.wf (m.write a b) := by
  unfold Memory.write
  split
  · exact ⟨h.1.sublist (assocErase_sublist m a), fun c hc => h.2 c ((assocErase_sublist m a).subset hc)⟩
  · refine ⟨assocPut_rising m a b h.1, fun c hc => ?_⟩
    rcases mem_assocPut hc with rfl | hc
    · exact ⟨‹_›, ha⟩
    · exact h.2 c hc

theorem assocGet_mem {α : Type} {m : List (Nat × α)} {a : Nat} {x : α} (h : assocGet m a = some x) :
    (a, x) ∈ m := by
  induction m with
  | nil => simp [assocGet] at h
  | cons d t ih =>
    obtain ⟨k, v⟩ := d
    simp only [assocGet] at h
    split at h
    · simp_all
    · exact List.mem_cons_of_mem _ (ih h)

/-- The canonical form is one: memories that read alike everywhere are equal. -/
theorem Memory.ext_of_read {m m' : Memory} (h : Memory.wf m) (h' : Memory.wf m')
    (he : ∀ a, Memory.read m a = Memory.read m' a) : m = m' := by
  refine assoc_ext m m' h.1 h'.1 (fun a => ?_)
  have hr := he a
  unfold Memory.read at hr
  rcases h1 : assocGet m a with _ | x <;> rcases h2 : assocGet m' a with _ | y <;> rw [h1, h2] at hr
  · exact absurd hr.symm (h'.2 _ (assocGet_mem h2)).1
  · exact absurd hr (h.2 _ (assocGet_mem h1)).1
  · simpa using hr

end Sys2Proof.Machine
end

