-- ==== Sys2Proof/Laws/Offsets.lean ====
section
/-! SUPPORT. The laws of the set of written offsets and of what is left of a job (spec/10_state.md R35). -/

namespace Sys2Proof.Machine

@[simp] theorem mem_insertOffset (i k : Nat) (l : List Nat) : k ∈ insertOffset i l ↔ k = i ∨ k ∈ l := by
  induction l with
  | nil => simp [insertOffset]
  | cons a t ih =>
    simp only [insertOffset]
    split
    · simp
    · split
      · subst_vars; simp
      · simp only [List.mem_cons, ih]; tauto

theorem insertOffset_rising (i : Nat) (l : List Nat) (h : l.Pairwise (· < ·)) :
    (insertOffset i l).Pairwise (· < ·) := by
  induction l with
  | nil => simp [insertOffset]
  | cons a t ih =>
    rw [List.pairwise_cons] at h
    simp only [insertOffset]
    split
    · refine List.pairwise_cons.2 ⟨?_, List.pairwise_cons.2 h⟩
      intro c hc
      rcases List.mem_cons.1 hc with rfl | hc
      · assumption
      · exact lt_trans ‹i < a› (h.1 c hc)
    · split
      · exact List.pairwise_cons.2 h
      · refine List.pairwise_cons.2 ⟨?_, ih h.2⟩
        intro c hc
        rcases (mem_insertOffset i c t).1 hc with rfl | hc
        · omega
        · exact h.1 c hc

theorem length_insertOffset (i : Nat) (l : List Nat) (h : i ∉ l) : (insertOffset i l).length = l.length + 1 := by
  induction l with
  | nil => rfl
  | cons a t ih =>
    simp only [List.mem_cons, not_or] at h
    simp only [insertOffset]
    split
    · simp
    · rw [if_neg h.1]; simp [ih h.2]

@[simp] theorem Job.mem_remaining (j : Job) (i : Nat) : i ∈ j.remaining ↔ i < j.len ∧ i ∉ j.written := by
  simp [Job.remaining]

/-- The next offset is one of those left. -/
theorem Job.nextOffset_mem {j : Job} {pick i : Nat} (h : j.nextOffset pick = some i) : i ∈ j.remaining :=
  List.mem_of_getElem? h

/-- There is a next offset exactly when one is left. -/
theorem Job.nextOffset_eq_none (j : Job) (pick : Nat) : j.nextOffset pick = none ↔ j.remaining = [] := by
  unfold Job.nextOffset
  rw [List.getElem?_eq_none_iff]
  constructor
  · intro h
    by_contra hne
    have := Nat.mod_lt pick (List.length_pos_iff.2 hne)
    omega
  · intro h; simp [h]

/-- Writing a left offset leaves one offset fewer. -/
theorem remaining_length_insert (j : Job) (i : Nat) (h : i ∈ j.remaining) :
    { j with written := insertOffset i j.written : Job }.remaining.length + 1 = j.remaining.length := by
  have hnd : j.remaining.Nodup := (List.nodup_range (n := j.len)).filter _
  have hnd' : ({ j with written := insertOffset i j.written : Job }.remaining).Nodup :=
    (List.nodup_range (n := j.len)).filter _
  have hp : (i :: { j with written := insertOffset i j.written : Job }.remaining).Perm j.remaining := by
    refine (List.perm_ext_iff_of_nodup ?_ hnd).2 ?_
    · refine List.nodup_cons.2 ⟨?_, hnd'⟩
      simp
    · intro k
      simp only [List.mem_cons, Job.mem_remaining, mem_insertOffset, not_or]
      simp only [Job.mem_remaining] at h
      constructor
      · rintro (rfl | ⟨h1, -, h3⟩)
        · exact h
        · exact ⟨h1, h3⟩
      · rintro ⟨h1, h2⟩
        by_cases hk : k = i
        · exact .inl hk
        · exact .inr ⟨h1, hk, h2⟩
  simpa using hp.length_eq

/-- The offsets written and those left are LEN in number. -/
theorem remaining_length_add (j : Job) (hr : j.written.Pairwise (· < ·)) (hi : ∀ i ∈ j.written, i < j.len) :
    j.written.length + j.remaining.length = j.len := by
  have hnd : j.written.Nodup := hr.imp (fun h => Nat.ne_of_lt h)
  have hnr : j.remaining.Nodup := (List.nodup_range (n := j.len)).filter _
  have hp : (j.written ++ j.remaining).Perm (List.range j.len) := by
    refine (List.perm_ext_iff_of_nodup ?_ List.nodup_range).2 ?_
    · refine List.nodup_append.2 ⟨hnd, hnr, ?_⟩
      rintro a ha b hb rfl
      exact ((Job.mem_remaining j a).1 hb).2 ha
    · intro k
      simp only [List.mem_append, Job.mem_remaining, List.mem_range]
      constructor
      · rintro (h | h)
        · exact hi k h
        · exact h.1
      · intro h
        by_cases hk : k ∈ j.written
        · exact .inl hk
        · exact .inr ⟨h, hk⟩
  have := hp.length_eq
  simpa using this

end Sys2Proof.Machine
end

