-- ==== Sys2Proof/Laws/Engine.lean ====
section
/-! SUPPORT. What the engine's step can do (spec/20_memory.md R60 to R63), and what its write leaves in each field. -/

namespace Sys2Proof.Machine

/-- It is the engine's turn only with an active job that is not stuck. -/
theorem engineTurn_some {s : State} {j : Job} (h : s.engineTurn = some j) : s.job = some j ∧ j.stuck = false := by
  unfold State.engineTurn at h
  split at h
  · cases h
  · split at h
    · cases h
    · cases h; simp_all

/-- With an active job that is not stuck it is the host's turn only if the host has a statement and steps left. -/
theorem engineTurn_none {s : State} {j : Job} (h : s.engineTurn = none) (hj : s.job = some j)
    (hs : j.stuck = false) : s.host.rest ≠ [] ∧ s.sched.burst ≠ 0 := by
  unfold State.engineTurn at h
  rw [hj] at h
  simp only [hs, Bool.false_or] at h
  split at h
  · rename_i hc; simpa using hc
  · cases h

theorem engineTurn_of_atRest {s : State} {j : Job} (hj : s.job = some j) (hs : j.stuck = false)
    (hr : s.host.rest = []) : s.engineTurn = some j := by
  simp [State.engineTurn, hj, hs, hr]

theorem engineTurn_of_idle {s : State} (h : s.job = none) : s.engineTurn = none := by
  simp [State.engineTurn, h]

/-- It is the host's turn while it has a statement, and steps left or a stuck engine. -/
theorem engineTurn_of_burst {s : State} {j : Job} (hj : s.job = some j) (hr : s.host.rest ≠ [])
    (h : j.stuck = true ∨ 0 < s.sched.burst) : s.engineTurn = none := by
  unfold State.engineTurn
  rw [hj]
  rcases h with h | h
  · simp [h]
  · have : s.host.rest.isEmpty = false := by simpa using hr
    simp [this]
    omega

section WriteOut

variable (s : State) (j : Job) (i : Nat)

@[simp] theorem State.writeOut_mem :
    (s.writeOut j i).mem = s.mem.write (j.dst + i) ((s.frame j).out j.fmt i) := by
  unfold State.writeOut; dsimp only; split <;> rfl

@[simp] theorem State.writeOut_params : (s.writeOut j i).params = s.params := by
  unfold State.writeOut; dsimp only; split <;> rfl

@[simp] theorem State.writeOut_width : (s.writeOut j i).width = s.width := by
  unfold State.writeOut; dsimp only; split <;> rfl

@[simp] theorem State.writeOut_height : (s.writeOut j i).height = s.height := by
  unfold State.writeOut; dsimp only; split <;> rfl

@[simp] theorem State.writeOut_srcAddr : (s.writeOut j i).srcAddr = s.srcAddr := by
  unfold State.writeOut; dsimp only; split <;> rfl

@[simp] theorem State.writeOut_dstAddr : (s.writeOut j i).dstAddr = s.dstAddr := by
  unfold State.writeOut; dsimp only; split <;> rfl

@[simp] theorem State.writeOut_outLen : (s.writeOut j i).outLen = s.outLen := by
  unfold State.writeOut; dsimp only; split <;> rfl

@[simp] theorem State.writeOut_host : (s.writeOut j i).host = s.host := by
  unfold State.writeOut; dsimp only; split <;> rfl

/-- The last write ends the job. -/
theorem State.writeOut_last (h : { j with written := insertOffset i j.written : Job }.remaining = []) :
    (s.writeOut j i).job = none ∧ (s.writeOut j i).status = Status.finished := by
  unfold State.writeOut; simp [h]

/-- A write that is not the last leaves the job active with the offset written. -/
theorem State.writeOut_more (h : { j with written := insertOffset i j.written : Job }.remaining ≠ []) :
    (s.writeOut j i).job = some { j with written := insertOffset i j.written } ∧
    (s.writeOut j i).status = s.status := by
  unfold State.writeOut; simp [h]

end WriteOut

/-- The engine's step when the offset i is drawn. -/
theorem engineStep_of_nextOffset {j : Job} {s : State} {i : Nat} (h : j.nextOffset s.sched.pick = some i) :
    engineStep j s =
      if s.admits j i then .next (s.writeOut j i)
      else .next { s with job := some { j with stuck := true }, sched := s.sched.redraw } := by
  simp only [engineStep, h]

/-- Everything the engine's step can do. -/
theorem engineStep_cases (j : Job) (s : State) :
    (j.remaining = [] ∧ engineStep j s = .next s.finish) ∨
    (∃ i ∈ j.remaining, s.admits j i = true ∧ engineStep j s = .next (s.writeOut j i)) ∨
    (∃ i ∈ j.remaining, s.admits j i = false ∧
      engineStep j s = .next { s with job := some { j with stuck := true }, sched := s.sched.redraw }) := by
  unfold engineStep
  cases h : j.nextOffset s.sched.pick with
  | none => exact .inl ⟨(Job.nextOffset_eq_none j _).1 h, rfl⟩
  | some i =>
    right
    have hi := Job.nextOffset_mem h
    cases ha : s.admits j i
    · exact .inr ⟨i, hi, ha, by simp [ha]⟩
    · exact .inl ⟨i, hi, ha, by simp [ha]⟩

theorem step_of_engineTurn {s : State} {j : Job} (h : s.engineTurn = some j) : step s = engineStep j s := by
  simp [step, h]

theorem step_of_hostTurn {s : State} (h : s.engineTurn = none) : step s = hostStep s := by simp [step, h]

theorem step_of_stmt {s : State} {st : HostStmt} {rest : List HostStmt} (h : s.engineTurn = none)
    (hr : s.host.rest = st :: rest) : step s = runStmt (s.advance rest) rest st := by
  rw [step_of_hostTurn h]; simp [hostStep, hr]

end Sys2Proof.Machine
end

