-- ==== Sys2Proof/Laws/HostPort.lean ====
section
/-! SUPPORT. What the host's step can do: a reset of the block or one of five effects on the state (`HostEffect`). -/

namespace Sys2Proof.Machine

/-- What a statement of the host other than a reset of the block can make of the state s. -/
inductive HostEffect (s : State) : State → Prop
  /-- only the host's own side changes -/
  | hostOnly (h : HostSide) : HostEffect s { s with host := h }
  /-- a byte outside the ranges of an active job is stored -/
  | stored (h : HostSide) (a : Nat) (b : Byte) (ha : a < Config.memSize) (hj : s.inJob a = false) :
      HostEffect s { s with host := h, mem := s.mem.write a b }
  /-- a register that only stores is written while idle -/
  | reg (r : Reg) (v : Word) (hj : s.job = none) : HostEffect s (storeReg s r v)
  /-- a command word is rejected -/
  | rejected (e : ErrCode) (hj : s.job = none) (he : e ≠ .none) : HostEffect s (s.reject e)
  /-- a command is accepted -/
  | accepted (fmt : PixelFormat) (hj : s.job = none)
      (hd : badDimensions fmt s.width.toNat s.height.toNat = false)
      (hb : (operands s).breach s.params fmt = none) : HostEffect s (s.accept fmt (operands s))

theorem HostEffect.refl (s : State) : HostEffect s s := .hostOnly s.host

/-- No statement changes the parameters. -/
theorem HostEffect.params {s t : State} (h : HostEffect s t) : t.params = s.params := by
  cases h with
  | reg r v hj => cases r <;> rfl
  | accepted fmt hj hd hb => simp only [State.accept]; split <;> rfl
  | _ => rfl

/-- While a job is active a statement changes nothing of the block and no byte of the job's ranges. -/
theorem HostEffect.of_job {s t : State} {j : Job} (h : HostEffect s t) (hj : s.job = some j) :
    t.job = s.job ∧ t.width = s.width ∧ t.height = s.height ∧ t.srcAddr = s.srcAddr ∧ t.dstAddr = s.dstAddr ∧
    t.outLen = s.outLen ∧ t.status = s.status ∧ t.sched = s.sched ∧
    ∀ a, j.inSource a = true ∨ j.inDest a = true → t.mem.read a = s.mem.read a := by
  cases h with
  | hostOnly => simp
  | stored h a b ha hin =>
    simp only [State.inJob, hj, Bool.or_eq_false_iff] at hin
    refine ⟨rfl, rfl, rfl, rfl, rfl, rfl, rfl, rfl, fun c hc => Memory.read_write_other _ _ _ _ ?_⟩
    rintro rfl
    rcases hc with hc | hc <;> simp_all
  | reg r v hn => simp [hj] at hn
  | rejected e hn => simp [hj] at hn
  | accepted fmt hn => simp [hj] at hn

theorem issue_effect {fmt : PixelFormat} {s t : State} (h : issue fmt s = .next t) : HostEffect s t := by
  rcases issue_cases fmt s with ⟨-, he⟩ | ⟨hj, -, he⟩ | ⟨-, -, r, -, he⟩ | ⟨hj, hd, hb, he⟩ <;> rw [he] at h <;>
    cases h
  · exact .refl s
  · exact .rejected _ hj (by decide)
  · exact .accepted fmt hj hd hb

theorem issueUnknown_effect {s t : State} (h : issueUnknown s = .next t) : HostEffect s t := by
  unfold issueUnknown at h
  split at h <;> cases h
  · exact .refl s
  · exact .rejected _ ((State.busy_eq_false s).1 (Bool.not_eq_true _ ▸ ‹_›)) (by decide)

theorem cmdWrite_effect {s t : State} {c : Word} (h : cmdWrite s c = .next t) : HostEffect s t := by
  unfold cmdWrite at h
  split at h
  · rw [exec_eq_issue] at h; exact issue_effect h
  · exact issueUnknown_effect h

theorem regWrite_effect {s t : State} {off : Fin 32} {v : Word} (h : regWrite s off v = .next t) :
    HostEffect s t := by
  unfold regWrite at h
  split at h
  · exact cmdWrite_effect h
  · cases h
    split
    · exact .refl s
    · exact .reg _ _ ((State.busy_eq_false s).1 (Bool.not_eq_true _ ▸ ‹_›))
  · cases h; exact .refl s

/-- While a job is active a write in the window does nothing (spec/10_state.md R34). -/
theorem regWrite_busy {s : State} (off : Fin 32) (v : Word) (h : s.busy = true) : regWrite s off v = .next s := by
  unfold regWrite
  split
  · unfold cmdWrite
    split
    · rw [exec_eq_issue, issue_busy _ h]
    · simp [issueUnknown, h]
  · simp [h]
  · rfl

theorem regionHas_iff (r : Region) (a : Nat) : regionHas r a = true ↔ r.base ≤ a ∧ a < r.base + r.size :=
  inRange_iff _ _ _

theorem hasAny_iff (rs : List Region) (a : Nat) :
    hasAny rs a = true ↔ ∃ r ∈ rs, r.base ≤ a ∧ a < r.base + r.size := by
  simp only [hasAny, List.any_eq_true, regionHas_iff]

/-- The addresses of the register window in the memory space (spec/20_memory.md R51, spec/00_scope.md R6). -/
theorem hasAny_windowRegions_iff (p : Params) (a : Nat) :
    hasAny (windowRegions p) a = true ↔ ∃ b, p.windowInMemory = some b ∧ b ≤ a ∧ a < b + 32 := by
  rw [hasAny_iff]
  unfold windowRegions
  cases p.windowInMemory <;> simp [Config.regWindow]

/-- When a host access to a byte of memory can be made. -/
theorem hostAccessStop_none_iff (s : State) (a : Nat) :
    hostAccessStop s a = none ↔
      a < Config.memSize ∧ hasAny (windowRegions s.params) a = false ∧ hasAny s.params.notAdmitted a = false ∧
        hasAny s.params.sideEffects a = false := by
  unfold hostAccessStop
  split_ifs <;> simp_all

/-- A host access that is not stopped lies in the memory space. -/
theorem lt_of_hostAccessStop {s : State} {a : Nat} (h : hostAccessStop s a = none) : a < Config.memSize := by
  unfold hostAccessStop at h
  split at h
  · cases h
  · omega

/-- A host access that is stopped ends in a fault or a refusal. -/
theorem hostAccessStop_ne_next {s : State} {a : Nat} {t : State} : hostAccessStop s a ≠ some (.next t) := by
  unfold hostAccessStop
  repeat' split
  all_goals simp

/-- The stops of a host access depend on the parameters alone. -/
theorem hostAccessStop_congr {s t : State} (a : Nat) (h : t.params = s.params) :
    hostAccessStop t a = hostAccessStop s a := by
  simp only [hostAccessStop, h]

theorem State.inJob_eq_false_iff (s : State) (a : Nat) :
    s.inJob a = false ↔ ∀ j, s.job = some j → j.inSource a = false ∧ j.inDest a = false := by
  cases h : s.job <;> simp [State.inJob, h]

theorem hostStore_next {s t : State} {a : Nat} {b : Byte} (h : hostStore s a b = .next t) :
    a < Config.memSize ∧ s.inJob a = false ∧ t = s.store a b := by
  unfold hostStore at h
  split at h
  · cases h
  · split at h
    · subst h; exact absurd ‹_› hostAccessStop_ne_next
    · cases h; exact ⟨lt_of_hostAccessStop ‹_›, Bool.not_eq_true _ ▸ ‹¬ _›, rfl⟩

theorem hostLoad_next {s t : State} {a : Nat} {k : Byte → State} (h : hostLoad s a k = .next t) :
    t = k (s.mem.read a) := by
  unfold hostLoad at h
  split at h
  · subst h; exact absurd ‹_› hostAccessStop_ne_next
  · cases h; rfl

/-- Everything a statement of the host but a reset can do. -/
theorem runStmt_effect {s t : State} {rest : List HostStmt} {st : HostStmt} (hne : st ≠ .reset)
    (h : runStmt s rest st = .next t) : HostEffect s t := by
  cases st with
  | wr r v => exact regWrite_effect h
  | rd r x => cases h; exact .hostOnly _
  | busWrite off lanes =>
    simp only [runStmt, busWrite] at h
    split at h
    · split at h
      · exact regWrite_effect h
      · cases h
    · cases h
  | busRead off width x =>
    simp only [runStmt, busRead] at h
    split at h
    · cases h; exact .hostOnly _
    · cases h
  | mw a bs =>
    cases bs with
    | nil => cases h; exact .refl s
    | cons b bs =>
      simp only [runStmt] at h
      obtain ⟨ha, hj, rfl⟩ := hostStore_next h
      split at hj <;> split
      · exact .stored s.host a b ha hj
      · simp_all
      · simp_all
      · exact .stored { s.host with rest := .mw (a + 1) bs :: rest } a b ha hj
  | mr a n x got =>
    cases n with
    | zero => cases h; exact .hostOnly _
    | succ n =>
      simp only [runStmt] at h
      obtain rfl := hostLoad_next h
      split
      · exact .hostOnly _
      · exact .hostOnly _
  | label l => cases h; exact .refl s
  | ifGoto x bit v l =>
    simp only [runStmt] at h
    split at h
    · split at h
      · cases h; exact .hostOnly _
      · cases h
    · cases h; exact .refl s
  | reset => exact absurd rfl hne

/-- Everything the host's step can do. -/
theorem hostStep_effect {s t : State} (h : hostStep s = .next t) :
    (s.host.rest = [] ∧ t = s) ∨
    (∃ rest, s.host.rest = .reset :: rest ∧ t = (s.advance rest).blockReset) ∨
    ∃ st rest, s.host.rest = st :: rest ∧ st ≠ .reset ∧ HostEffect (s.advance rest) t := by
  unfold hostStep at h
  split at h
  · cases h; exact .inl ⟨‹_›, rfl⟩
  · rename_i st rest hr
    by_cases hst : st = .reset
    · subst hst; cases h; exact .inr (.inl ⟨rest, hr, rfl⟩)
    · exact .inr (.inr ⟨st, rest, hr, hst, runStmt_effect hst h⟩)

/-- Everything a step of the machine can do. -/
theorem step_cases {s t : State} (h : step s = .next t) :
    (∃ j, s.engineTurn = some j ∧ engineStep j s = .next t) ∨
    (s.engineTurn = none ∧ s.host.rest = [] ∧ t = s) ∨
    (s.engineTurn = none ∧ ∃ rest, s.host.rest = .reset :: rest ∧ t = (s.advance rest).blockReset) ∨
    (s.engineTurn = none ∧ ∃ st rest, s.host.rest = st :: rest ∧ st ≠ .reset ∧ HostEffect (s.advance rest) t) := by
  unfold step at h
  split at h
  · exact .inl ⟨_, ‹_›, h⟩
  · rcases hostStep_effect h with ⟨h1, h2⟩ | h1 | h1
    · exact .inr (.inl ⟨‹_›, h1, h2⟩)
    · exact .inr (.inr (.inl ⟨‹_›, h1⟩))
    · exact .inr (.inr (.inr ⟨‹_›, h1⟩))

end Sys2Proof.Machine
end

