-- ==== Sys2Proof/Laws/Packers.lean ====
section
/-! SUPPORT. Offsets and pixels: the arithmetic of the layouts, the addresses of a frame's pixels, and what an output byte's
value depends on (spec/42_layout_packers.md R154 to R163). -/

namespace Sys2Proof.Machine

/-! ### Raster order -/

theorem raster_div {w x : Nat} (y : Nat) (h : x < w) : (y * w + x) / w = y := by
  rw [Nat.mul_comm, Nat.mul_add_div (by omega), Nat.div_eq_of_lt h, Nat.add_zero]

theorem raster_mod {w x : Nat} (y : Nat) (h : x < w) : (y * w + x) % w = x := by
  rw [Nat.mul_comm, Nat.mul_add_mod, Nat.mod_eq_of_lt h]

/-- A pixel's number is below the number of pixels. -/
theorem raster_lt {w h x y : Nat} (hx : x < w) (hy : y < h) : y * w + x < w * h := by
  have : (y + 1) * w ≤ h * w := Nat.mul_le_mul_right w hy
  have : (y + 1) * w = y * w + w := by ring
  have : w * h = h * w := Nat.mul_comm w h
  omega

/-- A number below the number of pixels is a pixel's. -/
theorem raster_inv {w h k : Nat} (hk : k < w * h) : k % w < w ∧ k / w < h ∧ k / w * w + k % w = k := by
  have hw : 0 < w := by
    rcases Nat.eq_zero_or_pos w with rfl | hp
    · simp at hk
    · exact hp
  exact ⟨Nat.mod_lt _ hw, Nat.div_lt_of_lt_mul hk, by rw [Nat.mul_comm]; exact Nat.div_add_mod k w⟩

/-! ### Pixels in memory -/

/-- Every component of a pixel of the frame lies in the source range (spec/20_memory.md R52). -/
theorem Frame.addr_lt (f : Frame) {x y c : Nat} (hx : x < f.w) (hy : y < f.h) (hc : c < 3) :
    f.src ≤ f.addr x y c ∧ f.addr x y c < f.src + 3 * (f.w * f.h) := by
  have := raster_lt hx hy
  unfold Frame.addr
  omega

/-- Different components or pixels of a frame lie at different addresses. -/
theorem Frame.addr_inj (f : Frame) {x y c x' y' c' : Nat} (hx : x < f.w) (hx' : x' < f.w) (hc : c < 3) (hc' : c' < 3)
    (h : f.addr x y c = f.addr x' y' c') : x = x' ∧ y = y' ∧ c = c' := by
  unfold Frame.addr at h
  have hr : y * f.w + x = y' * f.w + x' := by omega
  have h1 := raster_div y hx
  have h2 := raster_div y' hx'
  have h3 := raster_mod y hx
  have h4 := raster_mod y' hx'
  rw [hr] at h1 h3
  exact ⟨by omega, by omega, by omega⟩

/-- The frame with another memory. -/
abbrev Frame.withMem (f : Frame) (m : Memory) : Frame := { f with mem := m }

/-- A sample of a plane depends on its pixel's three bytes alone. -/
theorem Frame.plane_congr (f : Frame) (m : Memory) (ch : Channel) (x y : Nat)
    (h : ∀ c, c < 3 → m.read (f.addr x y c) = f.mem.read (f.addr x y c)) :
    (f.withMem m).plane ch x y = f.plane ch x y := by
  have h0 : (f.withMem m).red x y = f.red x y := h 0 (by omega)
  have h1 : (f.withMem m).green x y = f.green x y := h 1 (by omega)
  have h2 : (f.withMem m).blue x y = f.blue x y := h 2 (by omega)
  unfold Frame.plane
  rw [h0, h1, h2]

/-- What a sample reads are components of its pixels. -/
theorem Frame.mem_sampleReads (f : Frame) (t : Sample) {a : Nat} (h : a ∈ f.sampleReads t) :
    ∃ p ∈ t.pixels, ∃ c, c < 3 ∧ a = f.addr p.1 p.2 c := by
  have key : ∀ x y : Nat, a ∈ f.pixelReads x y → ∃ c, c < 3 ∧ a = f.addr x y c := by
    intro x y hm
    simp only [Frame.pixelReads, List.mem_cons, List.not_mem_nil, or_false] at hm
    rcases hm with rfl | rfl | rfl
    exacts [⟨0, by omega, rfl⟩, ⟨1, by omega, rfl⟩, ⟨2, by omega, rfl⟩]
  cases t with
  | red x y => exact ⟨(x, y), by simp [Sample.pixels], 0, by omega, by simpa [Frame.sampleReads] using h⟩
  | green x y => exact ⟨(x, y), by simp [Sample.pixels], 1, by omega, by simpa [Frame.sampleReads] using h⟩
  | blue x y => exact ⟨(x, y), by simp [Sample.pixels], 2, by omega, by simpa [Frame.sampleReads] using h⟩
  | pad x y => simp [Frame.sampleReads] at h
  | full ch x y => exact ⟨(x, y), by simp [Sample.pixels], key x y h⟩
  | c420 ch cx cy =>
    simp only [Frame.sampleReads, List.mem_append] at h
    rcases h with ((h | h) | h) | h
    exacts [⟨(2 * cx, 2 * cy), by simp [Sample.pixels], key _ _ h⟩,
      ⟨(2 * cx + 1, 2 * cy), by simp [Sample.pixels], key _ _ h⟩,
      ⟨(2 * cx, 2 * cy + 1), by simp [Sample.pixels], key _ _ h⟩,
      ⟨(2 * cx + 1, 2 * cy + 1), by simp [Sample.pixels], key _ _ h⟩]
  | c422 ch gx y => exact ⟨(2 * gx, y), by simp [Sample.pixels], key _ _ h⟩

/-- A sample depends on the bytes it reads alone. -/
theorem Frame.sample_congr_reads (f : Frame) (m : Memory) (t : Sample)
    (h : ∀ a ∈ f.sampleReads t, m.read a = f.mem.read a) : (f.withMem m).sample t = f.sample t := by
  have key : ∀ ch x y, (∀ a ∈ f.pixelReads x y, m.read a = f.mem.read a) →
      (f.withMem m).plane ch x y = f.plane ch x y := by
    intro ch x y hp
    refine f.plane_congr m ch x y (fun c hc => hp _ ?_)
    rcases (by omega : c = 0 ∨ c = 1 ∨ c = 2) with rfl | rfl | rfl <;> simp [Frame.pixelReads]
  cases t with
  | red x y => exact h (f.addr x y 0) (by simp [Frame.sampleReads])
  | green x y => exact h (f.addr x y 1) (by simp [Frame.sampleReads])
  | blue x y => exact h (f.addr x y 2) (by simp [Frame.sampleReads])
  | pad x y => rfl
  | full ch x y => exact key ch x y h
  | c420 ch cx cy =>
    simp only [Frame.sampleReads, List.mem_append] at h
    simp only [Frame.sample, Frame.chroma420]
    rw [key ch (2 * cx) (2 * cy) (fun a ha => h a (.inl (.inl (.inl ha)))),
      key ch (2 * cx + 1) (2 * cy) (fun a ha => h a (.inl (.inl (.inr ha)))),
      key ch (2 * cx) (2 * cy + 1) (fun a ha => h a (.inl (.inr ha))),
      key ch (2 * cx + 1) (2 * cy + 1) (fun a ha => h a (.inr ha))]
  | c422 ch gx y => exact key ch (2 * gx) y h

/-- An output byte depends on the bytes the engine reads for it alone. -/
theorem Frame.siteByte_congr_reads (f : Frame) (m : Memory) (t : Site)
    (h : ∀ a ∈ f.siteReads t, m.read a = f.mem.read a) : (f.withMem m).siteByte t = f.siteByte t := by
  have hs := f.sample_congr_reads m t.sample h
  cases t <;> simp only [Frame.siteByte, Site.sample] at hs ⊢ <;> rw [hs]

/-- An output byte depends on the bytes of its sample's pixels alone. -/
theorem Frame.siteByte_congr (f : Frame) (m : Memory) (t : Site)
    (h : ∀ p ∈ t.sample.pixels, ∀ c, c < 3 → m.read (f.addr p.1 p.2 c) = f.mem.read (f.addr p.1 p.2 c)) :
    (f.withMem m).siteByte t = f.siteByte t := by
  refine f.siteByte_congr_reads m t (fun a ha => ?_)
  obtain ⟨p, hp, c, hc, rfl⟩ := f.mem_sampleReads t.sample ha
  exact h p hp c hc

/-! ### The 10-bit expansion -/

theorem p10_toNat (v : Byte) : (p10 v).toNat = v.toNat * 1023 / 255 * 64 := by
  have hv := v.isLt
  have h1 : v.toNat * 1023 / 255 < 1024 := by omega
  unfold p10
  rw [BitVec.toNat_shiftLeft, BitVec.toNat_ofNat, Nat.shiftLeft_eq,
    Nat.mod_eq_of_lt (show v.toNat * 1023 / 255 < 2 ^ 16 by omega)]
  omega

/-- The two bytes of a 16-bit value, the high one in front, are the value. -/
theorem high_append_low (w : Half) : (w >>> 8).setWidth 8 ++ w.setWidth 8 = w := by
  apply BitVec.eq_of_getLsbD_eq
  intro n hn
  rw [BitVec.getLsbD_append]
  by_cases h : n < 8
  · simp [h]
  · simp [h, show 8 + (n - 8) = n by omega, show n - 8 < 8 by omega]

end Sys2Proof.Machine
end

