-- ==== Sys2Proof/Laws/PerInstr.lean ====
section
/-! SUPPORT. Statements made of every command, one lemma per constructor of Instr. -/

namespace Sys2Proof.Laws.EncodingRoundTrip

/-- A well-formed command's four bytes decode to it, whatever follows them (spec/30_encoding.md R80, R86). -/
def Statement (i : Instr) : Prop :=
  i.wf = true ∧ (encode i).length = 4 ∧ ∀ rest : List Byte, decode (encode i ++ rest) = .ok (i, rest)

theorem encodeRgb24 : Statement .encodeRgb24 := ⟨rfl, rfl, fun _ => rfl⟩

theorem encodeXrgb32 : Statement .encodeXrgb32 := ⟨rfl, rfl, fun _ => rfl⟩

theorem encodeYuv444 : Statement .encodeYuv444 := ⟨rfl, rfl, fun _ => rfl⟩

theorem encodeI420 : Statement .encodeI420 := ⟨rfl, rfl, fun _ => rfl⟩

theorem encodeNv12 : Statement .encodeNv12 := ⟨rfl, rfl, fun _ => rfl⟩

theorem encodeYuyv : Statement .encodeYuyv := ⟨rfl, rfl, fun _ => rfl⟩

theorem encodeUyvy : Statement .encodeUyvy := ⟨rfl, rfl, fun _ => rfl⟩

theorem encodeP010 : Statement .encodeP010 := ⟨rfl, rfl, fun _ => rfl⟩

end Sys2Proof.Laws.EncodingRoundTrip
end

