-- ==== Sys2Proof/Laws/Run.lean ====
section
/-! SUPPORT. Runs of the machine: one step at a time. -/

namespace Sys2Proof.Machine

theorem run_of_next {M : Host.Core} {s t : M.State} (k : Nat) (h : M.step s = .next t) :
    M.run (k + 1) s = M.run k t := by
  simp [Host.Core.run, h]

theorem run_of_fault {M : Host.Core} {s : M.State} {r : M.Fault} (k : Nat) (h : M.step s = .fault r) :
    M.run (k + 1) s = .fault r := by
  simp [Host.Core.run, h]

theorem run_of_refused {M : Host.Core} {s : M.State} {r : M.Refusal} (k : Nat) (h : M.step s = .refused r) :
    M.run (k + 1) s = .refused r := by
  simp [Host.Core.run, h]

/-- A property that every step keeps holds after any number of steps. -/
theorem run_keeps {P : State → Prop} (hP : ∀ s t, P s → step s = .next t → P t) (n : Nat) {s t : State}
    (h : P s) (hr : core.run n s = .next t) : P t := by
  induction n generalizing s with
  | zero => cases hr; exact h
  | succ n ih =>
    cases hs : step s with
    | next s' => exact ih (hP s s' h hs) ((run_of_next (M := core) n hs).symm.trans hr)
    | fault r => have := (run_of_fault (M := core) n hs).symm.trans hr; cases this
    | refused r => have := (run_of_refused (M := core) n hs).symm.trans hr; cases this

end Sys2Proof.Machine
end

