-- ==== Sys2Proof/Tests/Slice0.lean ====
section
/-! SUPPORT. Small tests of the model against the spec's vectors (spec/95_test_vectors.md), the smoke test of
well-formedness, and for every obligation that has hypotheses a state and operands that meet them. -/

namespace Sys2Proof.Tests

open Sys2Proof Sys2Proof.Machine

/-! ### Helpers -/

/-- Memory with the bytes `bs` from address `a`. -/
def bytesAt (a : Nat) (bs : List Byte) : Memory :=
  bs.zipIdx.foldl (fun m p => m.write (a + p.2) p.1) []

/-- An idle block set up for a W × H frame at 0x1000 and an output at 0x2000. -/
def idle (w h : Half) (bs : List Byte) : State :=
  { State.reset with
    width := w, height := h, srcAddr := 0x1000#32, dstAddr := 0x2000#32, mem := bytesAt 0x1000 bs }

/-- Frame F1 of spec/95_test_vectors.md section 2.5. -/
def f1 : State :=
  idle 2#16 2#16 [0xFF#8, 0x00#8, 0x00#8, 0x00#8, 0xFF#8, 0x00#8, 0x00#8, 0x00#8, 0xFF#8, 0xFF#8, 0xFF#8, 0xFF#8]

/-- Frame F2 of spec/95_test_vectors.md section 2.5. -/
def f2 : State :=
  idle 4#16 2#16
    ([0x0A#8, 0x14#8, 0x1E#8, 0x28#8, 0x32#8, 0x3C#8, 0x46#8, 0x50#8, 0x5A#8, 0x64#8, 0x6E#8, 0x78#8] ++
     [0xC8#8, 0x0A#8, 0x0A#8, 0x0A#8, 0xC8#8, 0x0A#8, 0x0A#8, 0x0A#8, 0xC8#8, 0x80#8, 0x80#8, 0x80#8])

/-- The frame of V-3x1 (W 3, H 1) or V-1x3 (W 1, H 3). -/
def nine (w h : Half) : State := idle w h [1#8, 2#8, 3#8, 4#8, 5#8, 6#8, 7#8, 8#8, 9#8]

/-- One pixel (1, 2, 3). -/
def onePixel : State := idle 1#16 1#16 [1#8, 2#8, 3#8]

/-- The frame a command issued in s reads. -/
def frameOf (s : State) : Frame := s.frame ((operands s).job .rgb24)

/-- The bytes of a command's output. -/
def output (s : State) (fmt : PixelFormat) : List Nat :=
  (List.range (outputLen s.width.toNat s.height.toNat fmt)).map (fun i => ((frameOf s).out fmt i).toNat)

/-- s with an accepted job in the format whose offsets `ws` are written. -/
def running (s : State) (fmt : PixelFormat) (ws : List Nat) : State :=
  { s with
    outLen := BitVec.ofNat 32 (outputLen s.width.toNat s.height.toNat fmt)
    job := some { (operands s).job fmt with written := ws }
    mem := ws.foldl (fun m i => m.write (0x2000 + i) ((frameOf s).out fmt i)) s.mem }

/-- s with the host's statements p to run and n steps before the engine's next one. -/
def withHost (s : State) (p : List HostStmt) (n : Nat) : State :=
  { s.loadProgram p with sched := { s.sched with burst := n } }

/-- s on a platform that does not admit the regions rs. -/
def notAdmitting (s : State) (rs : List Region) : State :=
  { s with params := { s.params with notAdmitted := rs } }

/-- A test of the next state. -/
def onNext (o : Host.Outcome State Fault Refusal) (p : State → Bool) : Bool :=
  match o with
  | .next t => p t
  | .fault _ => false
  | .refused _ => false

/-- Why the machine refuses, if it does. -/
def refusal (o : Host.Outcome State Fault Refusal) : Option Refusal :=
  match o with
  | .next _ => none
  | .fault _ => none
  | .refused r => some r

/-- Why the machine faults, if it does. -/
def faultOf (o : Host.Outcome State Fault Refusal) : Option Fault :=
  match o with
  | .next _ => none
  | .fault r => some r
  | .refused _ => none

/-! ### Well-formedness: each check refuses an ill-formed term -/

theorem test_wf_accepts :
    HostProgram.wf [.label 1, .rd .status 0, .ifGoto 0 31 true 1, .mw 0xFFFFFFFF [1#8], .mr 0xFFFFFFFE 2 0 [],
      .busWrite 0x1C [0#8, 0#8, 0#8, 0#8], .busRead 0x1C 4 0, .wr .cmd 0#32, .reset] = true := by decide

/-- R57: a write of three bytes; a write at an offset that is no multiple of 4. -/
theorem test_wf_busWrite :
    HostStmt.wf (.busWrite 0x08 [0#8, 0#8, 0#8]) = false ∧
    HostStmt.wf (.busWrite 0x0A [0#8, 0#8, 0#8, 0#8]) = false := by decide

theorem test_wf_busRead : HostStmt.wf (.busRead 0x04 1 0) = false ∧ HostStmt.wf (.busRead 0x05 4 0) = false := by
  decide

/-- R50: bytes past the top of the memory space. -/
theorem test_wf_memory :
    HostStmt.wf (.mw 0xFFFFFFFF [0#8, 0#8]) = false ∧ HostStmt.wf (.mr 0xFFFFFFFF 2 0 []) = false := by decide

theorem test_wf_bit : HostStmt.wf (.ifGoto 0 32 true 1) = false := by decide

/-- R87: a label defined twice, a jump to no label, an ill-formed statement in a program. -/
theorem test_wf_program :
    HostProgram.wf [.label 1, .label 1] = false ∧ HostProgram.wf [.ifGoto 0 0 true 1] = false ∧
    HostProgram.wf [.busRead 0x05 4 0] = false := by decide

/-- R87: "an immediate above 0xFFFFFFFF is a syntax error". -/
theorem test_wf_immediates :
    AsmStmt.wf (.wr .width 0x100000000) = false ∧ AsmStmt.wf (.mw 0x100000000 []) = false ∧
    AsmStmt.wf (.mr 0x100000000 1 0) = false ∧ AsmStmt.wf (.setup 0x100000000 0 0 0) = false ∧
    AsmStmt.wf (.setup 0 0x100000000 0 0) = false ∧ AsmStmt.wf (.setup 0 0 0x100000000 0) = false ∧
    AsmStmt.wf (.setup 0 0 0 0x100000000) = false ∧ AsmStmt.wf (.setup 0xFFFFFFFF 0 0 0) = true := by decide

/-! ### Decoding: words written out from R81 -/

theorem test_decode_words :
    decodeTableWord 32 0b00000000000000000000000000000000 = some .encodeRgb24 ∧
    decodeTableWord 32 0b00000000000000000000000000000001 = some .encodeXrgb32 ∧
    decodeTableWord 32 0b00000000000000000000000000000010 = some .encodeYuv444 ∧
    decodeTableWord 32 0b00000000000000000000000000000011 = some .encodeI420 ∧
    decodeTableWord 32 0b00000000000000000000000000000100 = some .encodeNv12 ∧
    decodeTableWord 32 0b00000000000000000000000000000101 = some .encodeYuyv ∧
    decodeTableWord 32 0b00000000000000000000000000000110 = some .encodeUyvy ∧
    decodeTableWord 32 0b00000000000000000000000000000111 = some .encodeP010 := by decide

/-- R83, R80: every other word is illegal, also one whose low bits are a code; three bytes are no word. -/
theorem test_decode_refuses :
    decodeTableWord 32 8 = none ∧ decodeTableWord 32 0xFFFFFFFF = none ∧ decodeTableWord 32 0x80000003 = none ∧
    decode [3#8, 1#8, 0#8, 0#8] = .error (.invalidFormatName 0x103#32) ∧
    decode [0#8, 0#8, 0#8] = .error .truncated := by decide

/-- R56 (b): the byte at offset k holds bits 8k+7:8k. -/
theorem test_lanes :
    bytesOfWord 0x11223344#32 = [0x44#8, 0x33#8, 0x22#8, 0x11#8] ∧
    wordOfLanes 0x44#8 0x33#8 0x22#8 0x11#8 = 0x11223344#32 := by decide

/-! ### The Color Transform: section 2.1 -/

/-- Y, U and V of a pixel. -/
def yuv (ties : List TiePoint) (r g b : Nat) : List Nat :=
  [Channel.y, .u, .v].map (fun ch => (ct ties ch (BitVec.ofNat 8 r) (BitVec.ofNat 8 g) (BitVec.ofNat 8 b)).toNat)

theorem test_ct_corners :
    yuv [] 0 0 0 = [16, 128, 128] ∧ yuv [] 255 255 255 = [235, 128, 128] ∧ yuv [] 255 0 0 = [81, 90, 240] ∧
    yuv [] 0 255 0 = [144, 54, 34] ∧ yuv [] 0 0 255 = [40, 240, 110] ∧ yuv [] 255 255 0 = [210, 16, 146] ∧
    yuv [] 0 255 255 = [169, 166, 16] ∧ yuv [] 255 0 255 = [106, 202, 222] := by decide

theorem test_ct_general :
    yuv [] 128 128 128 = [125, 128, 128] ∧ yuv [] 1 1 1 = [16, 128, 128] ∧ yuv [] 254 254 254 = [234, 128, 128] ∧
    yuv [] 6 140 9 = [89, 90, 78] ∧ yuv [] 13 249 175 = [162, 130, 30] ∧ yuv [] 100 150 200 = [136, 157, 102] ∧
    yuv [] 1 1 0 = [16, 128, 128] ∧ yuv [] 0 1 1 = [16, 128, 128] ∧ yuv [] 1 2 3 = [17, 129, 127] := by decide

theorem test_ct_accumulators :
    accY 255#8 0#8 0#8 = 76245000 ∧ accU 255#8 0#8 0#8 = 84972320 ∧ accV 255#8 0#8 0#8 = 255500000 ∧
    accY 100#8 150#8 200#8 = 140750000 ∧ accU 100#8 150#8 200#8 = 161436800 ∧
    accV 100#8 150#8 200#8 = 98934400 := by decide

/-- CT-T1 to CT-T4. -/
theorem test_ct_ties :
    yuv [{ ch := .y, r := 6#8, g := 140#8, b := 9#8 }] 6 140 9 = [88, 90, 78] ∧
    yuv [{ ch := .u, r := 1#8, g := 1#8, b := 0#8 }] 1 1 0 = [16, 127, 128] ∧
    yuv [{ ch := .y, r := 0#8, g := 0#8, b := 0#8 }] 0 0 0 = [16, 128, 128] ∧
    yuv [{ ch := .y, r := 100#8, g := 150#8, b := 200#8 }] 100 150 200 = [136, 157, 102] := by decide

/-! ### The Chroma Subsampler and the 10-bit expansion: sections 2.2 and 2.3 -/

theorem test_average :
    average4 128#8 128#8 128#8 129#8 = 128#8 ∧ average4 16#8 17#8 17#8 17#8 = 16#8 ∧
    average4 240#8 240#8 240#8 239#8 = 239#8 ∧ average4 240#8 240#8 240#8 240#8 = 240#8 ∧
    average4 134#8 134#8 211#8 128#8 = 151#8 := by decide

theorem test_decimation : (frameOf f1).chroma422 .u 0 0 = 90#8 ∧ (frameOf f2).chroma422 .v 0 1 = 211#8 := by decide

theorem test_p10 :
    [0, 1, 15, 16, 64, 81, 127, 128, 129, 144, 200, 235, 240, 254, 255].map
        (fun v => (p10 (BitVec.ofNat 8 v)).toNat) =
      [0x0000, 0x0100, 0x0F00, 0x1000, 0x4000, 0x5100, 0x7F40, 0x8040, 0x8140, 0x9040, 0xC880, 0xEB80, 0xF080,
        0xFE80, 0xFFC0] := by decide

/-! ### The eight commands: section 2.5 -/

theorem test_out_rgb24 :
    output f1 .rgb24 = [0xFF, 0x00, 0x00, 0xFF, 0xFF, 0xFF, 0x00, 0x00, 0xFF, 0x00, 0xFF, 0x00] ∧
    output (nine 1#16 3#16) .rgb24 = [9, 8, 7, 6, 5, 4, 3, 2, 1] ∧
    output (nine 3#16 1#16) .rgb24 = [3, 2, 1, 6, 5, 4, 9, 8, 7] := by decide

theorem test_out_xrgb32 :
    output f1 .xrgb32 = [0xFF, 0x00, 0x00, 0x00, 0xFF, 0xFF, 0xFF, 0x00, 0x00, 0x00, 0xFF, 0x00, 0x00, 0xFF, 0x00,
      0x00] ∧
    output (nine 3#16 1#16) .xrgb32 = [3, 2, 1, 0, 6, 5, 4, 0, 9, 8, 7, 0] := by decide

theorem test_out_yuv444 :
    output f2 .yuv444 = [0x1F, 0x39, 0x53, 0x6C, 0x49, 0x78, 0x2B, 0x7D] ++
      [0x86, 0x86, 0x86, 0x86, 0x64, 0x49, 0xD3, 0x80] ++ [0x7B, 0x7B, 0x7B, 0x7B, 0xD3, 0x3A, 0x72, 0x80] ∧
    output (nine 3#16 1#16) .yuv444 = [0x11, 0x14, 0x16, 0x81, 0x81, 0x81, 0x7F, 0x7F, 0x7F] := by decide

theorem test_out_i420 :
    output f1 .i420 = [0x51, 0x90, 0x28, 0xEB, 0x80, 0x80] ∧
    output f2 .i420 = [0x1F, 0x39, 0x53, 0x6C, 0x49, 0x78, 0x2B, 0x7D, 0x6E, 0x97, 0x80, 0x7A] := by decide

theorem test_out_nv12 :
    output f1 .nv12 = [0x51, 0x90, 0x28, 0xEB, 0x80, 0x80] ∧
    output f2 .nv12 = [0x1F, 0x39, 0x53, 0x6C, 0x49, 0x78, 0x2B, 0x7D, 0x6E, 0x80, 0x97, 0x7A] := by decide

theorem test_out_yuyv :
    output f2 .yuyv = [0x1F, 0x86, 0x39, 0x7B, 0x53, 0x86, 0x6C, 0x7B, 0x49, 0x64, 0x78, 0xD3, 0x2B, 0xD3, 0x7D,
      0x72] := by decide

theorem test_out_uyvy :
    output f2 .uyvy = [0x86, 0x1F, 0x7B, 0x39, 0x86, 0x53, 0x7B, 0x6C, 0x64, 0x49, 0xD3, 0x78, 0xD3, 0x2B, 0x72,
      0x7D] := by decide

theorem test_out_p010 :
    output f2 .p010 = [0x00, 0x1F, 0x00, 0x39, 0x00, 0x53, 0x40, 0x6C, 0x00, 0x49, 0x40, 0x78, 0x00, 0x2B, 0x40,
      0x7D] ++ [0x40, 0x6E, 0x40, 0x80, 0x40, 0x97, 0x40, 0x7A] := by decide

/-- Issued while idle, each command is accepted: STATUS 0x1, OUT_LEN as section 2.4 has it for 4 × 2, nothing
written yet. -/
theorem test_accept :
    [(Instr.encodeRgb24, 24#32), (.encodeXrgb32, 32#32), (.encodeYuv444, 24#32), (.encodeI420, 12#32),
      (.encodeNv12, 12#32), (.encodeYuyv, 16#32), (.encodeUyvy, 16#32), (.encodeP010, 24#32)].all
      (fun p => onNext (exec p.1 f2) (fun t =>
        readOffset t 0x04 == 1#32 && t.outLen == p.2 && t.mem == f2.mem && t.width == 4#16)) = true := by decide

/-- V-0x0 and V-0xH: an empty frame ends in the issuing step, with nothing written. -/
theorem test_empty :
    onNext (exec .encodeI420 (idle 0#16 0#16 [])) (fun t => readOffset t 0x04 == 2#32 && t.outLen == 0#32) = true ∧
    onNext (exec .encodeYuyv (idle 0#16 2#16 [])) (fun t => readOffset t 0x04 == 2#32 && t.mem == []) = true := by
  decide

/-! ### Errors and refusals: section 2.6, R208 -/

/-- E1 to E7. -/
theorem test_errors :
    onNext (regWrite (nine 3#16 1#16) 0x00 3#32) (fun t => readOffset t 0x04 == 0x14#32 && t.outLen == 0#32) = true ∧
    onNext (regWrite (idle 2#16 1#16 []) 0x00 5#32) (fun t => readOffset t 0x04 == 0x14#32) = true ∧
    onNext (regWrite (idle 1920#16 1079#16 []) 0x00 7#32) (fun t => readOffset t 0x04 == 0x14#32) = true ∧
    onNext (regWrite f1 0x00 8#32) (fun t => readOffset t 0x04 == 0x24#32 && t.mem == f1.mem) = true ∧
    onNext (regWrite f1 0x00 0xFFFFFFFF#32) (fun t => readOffset t 0x04 == 0x24#32) = true ∧
    onNext (regWrite (nine 3#16 1#16) 0x00 8#32) (fun t => readOffset t 0x04 == 0x24#32) = true ∧
    onNext (regWrite (nine 3#16 1#16) 0x00 2#32) (fun t => readOffset t 0x04 == 1#32 && t.outLen == 9#32) = true := by
  decide

/-- The reset registers make a source and a destination range that both begin at 0: a breach of R55, refused as R150
says. A range that passes 0xFFFFFFFF is refused (R54), one that just reaches it is not. -/
theorem test_contract :
    refusal (step (State.reset.withFetchWord 32 0)) = some .rangesOverlap ∧
    refusal (exec .encodeRgb24 { f1 with dstAddr := 0xFFFFFFF5#32 }) = some .rangePastTop ∧
    refusal (exec .encodeRgb24 { f1 with dstAddr := 0xFFFFFFF4#32 }) = none ∧
    refusal (exec .encodeRgb24 { f1 with dstAddr := 0x100B#32 }) = some .rangesOverlap ∧
    refusal (exec .encodeRgb24 { f1 with dstAddr := 0x100C#32 }) = none := by decide

/-- R51 and R59: a range that reaches the register window or a location with side effects. -/
theorem test_platform :
    refusal (exec .encodeI420 { f1 with params := { f1.params with windowInMemory := some 0x2005 } }) =
      some .rangeMeetsRegisterWindow ∧
    refusal (exec .encodeI420 { f1 with params := { f1.params with windowInMemory := some 0x2006 } }) = none ∧
    refusal (exec .encodeI420 { f1 with params := { f1.params with sideEffects := [⟨0x1000, 1⟩] } }) =
      some .rangeMeetsSideEffects := by decide

/-! ### Registers, reset and hazards: section 2.7 -/

/-- H2 and H3. -/
theorem test_registers :
    onNext (regWrite f1 0x08 0x00010002#32) (fun t => readOffset t 0x08 == 2#32) = true ∧
    onNext (regWrite f1 0x04 0xFFFFFFFF#32) (fun t => t == f1) = true ∧
    onNext (regWrite f1 0x00 4#32) (fun t => readOffset t 0x00 == 0#32) = true := by decide

/-- H6 and R34: the register window ignores writes while BUSY = 1. -/
theorem test_busy_writes :
    onNext (regWrite (running f1 .nv12 [0]) 0x08 8#32) (fun t => t == running f1 .nv12 [0]) = true ∧
    onNext (regWrite (running f1 .nv12 [0]) 0x00 9#32) (fun t => t == running f1 .nv12 [0]) = true := by decide

/-- H8: reset while BUSY = 1. -/
theorem test_reset_in_job :
    onNext (step (withHost (running f1 .nv12 [0, 3]) [.reset] 1)) (fun t =>
      readOffset t 0x04 == 0#32 && readOffset t 0x08 == 0x780#32 && readOffset t 0x0C == 0x438#32 &&
      t.outLen == 0#32 && t.mem.read 0x2000 == 0x51#8 && t.mem.read 0x2001 == 0#8 && t.mem.read 0x2003 == 0xEB#8)
      = true := by decide

/-- H9, R237 and what else the host's memory accesses stop on. -/
theorem test_host_stops :
    refusal (step (withHost (running f1 .nv12 []) [.mw 0x100B [0#8]] 1)) = some .hostWriteDuringJob ∧
    refusal (step (withHost (running f1 .nv12 []) [.mw 0x2005 [0#8]] 1)) = some .hostWriteDuringJob ∧
    onNext (step (withHost (running f1 .nv12 []) [.mw 0x2006 [7#8]] 1)) (fun t => t.mem.read 0x2006 == 7#8) = true ∧
    faultOf (step (withHost f1 [.mr 0x100000000 1 0 []] 0)) = some .hostAddressOutsideMemory ∧
    faultOf (step (withHost (notAdmitting f1 [⟨0x3000, 1⟩]) [.mr 0x3000 1 0 []] 0)) = some .hostAccessNotAdmitted ∧
    refusal (step (withHost f1 [.busRead 0x04 2 0] 0)) = some .registerAccessShape ∧
    refusal (step (withHost f1 [.ifGoto 0 0 false 9] 0)) = some .undefinedLabel := by decide

/-- R62, R35: the last write of a job, its only open offset being 2. -/
theorem test_last_write :
    onNext (step (running onePixel .rgb24 [0, 1])) (fun t =>
      readOffset t 0x04 == 2#32 && t.mem.read 0x2002 == 1#8 && t.outLen == 3#32) = true := by decide

/-- A byte of RGB24 asks for its own component alone (log entry 2): the others need not be admitted. -/
theorem test_reads_one_component :
    (frameOf f1).siteReads (siteOf .rgb24 2 2 0) = [0x1008] ∧ (frameOf f1).siteReads (siteOf .xrgb32 2 2 3) = [] ∧
    (frameOf f1).siteReads (siteOf .yuv444 2 2 1) = [0x1003, 0x1004, 0x1005] ∧
    onNext (step (notAdmitting (running onePixel .rgb24 [0, 1]) [⟨0x1001, 2⟩])) (fun t =>
      readOffset t 0x04 == 2#32 && t.mem.read 0x2002 == 1#8) = true := by decide

/-- XRGB32's fourth byte needs no read (R155): it is written though no source byte is admitted, unless the engine reads one
besides (log entry 2). -/
theorem test_extra_read_is_optional :
    onNext (step (notAdmitting (running onePixel .xrgb32 [0, 1, 2]) [⟨0x1000, 3⟩])) (fun t =>
      readOffset t 0x04 == 2#32) = true ∧
    onNext (step { notAdmitting (running onePixel .xrgb32 [0, 1, 2]) [⟨0x1000, 3⟩] with
      sched := { burst := 0, pick := 0, probe := 3, draws := 0 } }) (fun t =>
        readOffset t 0x04 == 1#32 && t.engineTurn == none) = true := by decide

/-- The refusals of R208 (d) and (e) come before the other stops of a host access (log entry 7). -/
theorem test_host_stop_order :
    refusal (step (withHost (notAdmitting (running f1 .nv12 []) [⟨0x2000, 1⟩]) [.mw 0x2000 [0#8]] 1)) =
      some .hostWriteDuringJob ∧
    refusal (step (withHost (notAdmitting { f1 with params := { f1.params with windowInMemory := some 0x3000 } }
      [⟨0x3000, 1⟩]) [.mr 0x3000 1 0 []] 0)) = some .registerAccessShape := by decide

/-- R60: the engine is stuck where its destination is not admitted. -/
theorem test_stuck :
    onNext (step (notAdmitting (running onePixel .rgb24 [0, 1]) [⟨0x2002, 1⟩])) (fun t =>
      readOffset t 0x04 == 1#32 && t.mem.read 0x2002 == 0#8 && t.engineTurn == none) = true := by decide

/-- The host's reads: a register, and two bytes of memory one after the other. -/
theorem test_host_reads :
    onNext (step (withHost f1 [.rd .height 5] 0)) (fun t => assocGet t.host.vars 5 == some (.word 2#32)) = true ∧
    onNext (core.run 2 (withHost f1 [.mr 0x1004 2 6 []] 0)) (fun t =>
      assocGet t.host.vars 6 == some (.bytes [0xFF#8, 0x00#8]) && t.host.rest == []) = true := by decide

/-- A jump to a label on the last line ends the program (log entry 9). -/
theorem test_last_label :
    onNext (step (withHost f1 [.ifGoto 0 0 false 9, .reset, .label 9] 0)) (fun t => t.host.rest == []) = true := by
  decide

/-! ### Assembly: program P1 of section 3 -/

theorem test_assemble :
    assemble [.setup 2 2 0x1000 0x2000, .encode .encodeNv12, .wait 0, .rd .outLen 1, .mr 0x2000 6 2] =
      some [.wr .width 2#32, .wr .height 2#32, .wr .srcAddr 0x1000#32, .wr .dstAddr 0x2000#32, .wr .cmd 4#32,
        .label 3, .rd .status 0, .ifGoto 0 0 true 3, .rd .outLen 1, .mr 0x2000 6 2 []] := by decide

theorem test_bus :
    busOf Params.default (.wr .width 2#32) = [.regWrite 0x08 [2#8, 0#8, 0#8, 0#8]] ∧
    busOf Params.default (.rd .status 0) = [.regRead 0x04 4] ∧
    busOf Params.default (.mw 0x1000 [0xFF#8, 0x00#8]) = [.memWrite 0x1000 0xFF#8, .memWrite 0x1001 0x00#8] := by
  decide

/-! ### Witnesses: a state and operands that meet the hypotheses of each obligation that has some -/

/-- F1 with an accepted NV12 job, offsets 0 and 3 written, the host about to run p, the engine not yet. -/
def busyHost (p : List HostStmt) : State := withHost (running f1 .nv12 [0, 3]) p 1

/-- The job of `busyHost`. -/
def nv12Job : Job := { fmt := .nv12, w := 2, h := 2, src := 0x1000, dst := 0x2000, len := 6, written := [0, 3], stuck := false }

/-- The job of one pixel of RGB24 with one write left. -/
def lastJob : Job := { fmt := .rgb24, w := 1, h := 1, src := 0x1000, dst := 0x2000, len := 3, written := [0, 1], stuck := false }

/-- The state with `lastJob`, the host at rest. -/
def lastState : State := running onePixel .rgb24 [0, 1]

theorem busyHost_job (p : List HostStmt) : (busyHost p).job = some nv12Job := rfl

theorem lastState_job : lastState.job = some lastJob := rfl

theorem busyHost_inv (p : List HostStmt) : Inv (busyHost p) where
  mem := by change Memory.wf (busyHost []).mem; decide
  errcode := by change (busyHost []).status.errcode ≠ .none ↔ (busyHost []).status.err = true; decide
  oneOf := by change ¬ ((busyHost []).status.done = true ∧ (busyHost []).status.err = true); decide
  job := by
    intro j hj
    cases (busyHost_job p).symm.trans hj
    exact {
      width := rfl
      height := rfl
      srcAddr := rfl
      dstAddr := rfl
      len := rfl
      outLen := rfl
      dimensions := rfl
      contract := rfl
      status := rfl
      rising := by decide
      inside := by decide
      unfinished := by decide
      bytes := by
        change ∀ i ∈ nv12Job.written,
          (busyHost []).mem.read (nv12Job.dst + i) = ((busyHost []).frame nv12Job).out nv12Job.fmt i
        decide }

theorem lastState_inv : Inv lastState where
  mem := by decide
  errcode := by decide
  oneOf := by decide
  job := by
    intro j hj
    cases lastState_job.symm.trans hj
    exact {
      width := rfl
      height := rfl
      srcAddr := rfl
      dstAddr := rfl
      len := rfl
      outLen := rfl
      dimensions := rfl
      contract := rfl
      status := rfl
      rising := by decide
      inside := by decide
      unfinished := by decide
      bytes := by decide }

theorem idle_inv : Inv f1 where
  mem := by decide
  errcode := by decide
  oneOf := by decide
  job := fun _ hj => by cases hj

theorem admitted_of_default {s : State} (h : s.params.notAdmitted = []) (j : Job) : AllAdmitted s j := by
  intro a _
  rw [h]
  rfl

theorem witness_BlockResetAbandonsJob :
    (busyHost [.reset]).engineTurn = none ∧ (busyHost [.reset]).host.rest = .reset :: [] ∧
    (busyHost [.reset]).job = some nv12Job := by decide

theorem witness_WidthAndHeightRegisters : f1.busy = false ∧ (busyHost []).busy = true ∧ 16 ≤ 31 := by decide

theorem witness_AddressRegisters : f1.busy = false ∧ (busyHost []).busy = true := by decide

theorem witness_StatusBitsAreTheFields : f1.job = none ∧ 6 ≤ 6 ∧ 6 ≤ 31 := by decide

theorem witness_ReadOnlyOffsetsIgnoreWrites : (0x1C : Fin 32) ∉ [0x00, 0x04, 0x08, 0x0C, 0x10, 0x14, 0x18] := by decide

theorem witness_BusyWindowWritesIgnored :
    (busyHost []).busy = true ∧ (busyHost [.rd .status 0]).engineTurn = none ∧
    (busyHost [.rd .status 0]).host.rest = .rd .status 0 :: [] := by decide

theorem witness_RegisterAccessShapes :
    ¬ ([0#8, 0#8].length = 4 ∧ (0x04 : Fin 32).val % 4 = 0) ∧
    ¬ ([0#8, 0#8, 0#8, 0#8].length = 4 ∧ (0x1D : Fin 32).val % 4 = 0) ∧
    ¬ (1 = 4 ∧ (0x04 : Fin 32).val % 4 = 0) ∧ (0x1C : Fin 32).val % 4 = 0 ∧ (3 < 4 ∧ 7 < 8) := by decide

theorem witness_StepRunsDecodedCommand :
    (withHost f1 [.wr .cmd 4#32] 0).engineTurn = none ∧
    (withHost f1 [.wr .cmd 4#32] 0).host.rest = .wr .cmd 4#32 :: [] ∧ decodeWord 4#32 = .ok .encodeNv12 ∧
    (busyHost [.wr .cmd 8#32]).engineTurn = none ∧
    (busyHost [.wr .cmd 8#32]).host.rest = .wr .cmd 8#32 :: [] ∧
    decodeWord 8#32 = .error (.invalidFormatName 8#32) ∧ decodeTableWord 32 7 = some .encodeP010 ∧
    (Reg.outLen, (0x18 : Fin 32)) ∈ [(Reg.cmd, 0x00), (Reg.status, 0x04), (Reg.width, 0x08), (Reg.height, 0x0C),
      (Reg.srcAddr, 0x10), (Reg.dstAddr, 0x14), (Reg.outLen, 0x18)] ∧
    ((busyHost [.wr .outLen 8#32]).engineTurn = none ∧
      (busyHost [.wr .outLen 8#32]).host.rest = .wr .outLen 8#32 :: []) ∧
    ((busyHost [.rd .outLen 0]).engineTurn = none ∧ (busyHost [.rd .outLen 0]).host.rest = .rd .outLen 0 :: []) ∧
    ((busyHost [.busWrite 0x1C [1#8]]).engineTurn = none ∧
      (busyHost [.busWrite 0x1C [1#8]]).host.rest = .busWrite 0x1C [1#8] :: []) ∧
    ((busyHost [.busRead 0x1C 4 0]).engineTurn = none ∧
      (busyHost [.busRead 0x1C 4 0]).host.rest = .busRead 0x1C 4 0 :: []) := by decide

theorem witness_CommandWriteIssuesOnlyWhenIdle :
    decodeWord 7#32 = .ok .encodeP010 ∧ decodeWord 8#32 = .error (.invalidFormatName 8#32) ∧
    (busyHost []).busy = true := by decide

theorem witness_FullResolutionCommandsAccept :
    [Instr.encodeRgb24, .encodeXrgb32, .encodeYuv444].all (fun i =>
      decide ((nine 3#16 1#16).job = none ∧ (nine 3#16 1#16).width.toNat ≠ 0 ∧ (nine 3#16 1#16).height.toNat ≠ 0 ∧
        (operands (nine 3#16 1#16)).breach (nine 3#16 1#16).params i.format = none)) = true := by decide

theorem witness_SubsampledCommandsAccept :
    [Instr.encodeI420, .encodeNv12, .encodeYuyv, .encodeUyvy, .encodeP010].all (fun i =>
      decide (f1.job = none ∧ f1.width.toNat ≠ 0 ∧ f1.height.toNat ≠ 0 ∧ f1.width.toNat % 2 = 0 ∧
        f1.height.toNat % 2 = 0 ∧ (operands f1).breach f1.params i.format = none)) = true := by decide

theorem witness_EmptyFrameFinishesAtOnce :
    ((idle 0#16 2#16 []).job = none ∧ (idle 0#16 2#16 []).width.toNat = 0 ∧
      (subsampled Instr.encodeNv12.format = true →
        (idle 0#16 2#16 []).width.toNat % 2 = 0 ∧ (idle 0#16 2#16 []).height.toNat % 2 = 0)) ∧
    ((idle 3#16 0#16 []).job = none ∧ (idle 3#16 0#16 []).height.toNat = 0 ∧
      (subsampled Instr.encodeRgb24.format = true →
        (idle 3#16 0#16 []).width.toNat % 2 = 0 ∧ (idle 3#16 0#16 []).height.toNat % 2 = 0)) := by decide

theorem witness_OddDimensionsRejected :
    (nine 3#16 2#16).job = none ∧ (nine 3#16 2#16).width.toNat % 2 = 1 ∧ (nine 2#16 1#16).height.toNat % 2 = 1 ∧
    (∃ t, exec .encodeYuv444 (nine 3#16 1#16) = .next t) ∧
    ((idle 0#16 2#16 []).width.toNat % 2 = 0 ∧ (idle 0#16 2#16 []).height.toNat % 2 = 0 ∧
      ∃ t, exec .encodeI420 (idle 0#16 2#16 []) = .next t) :=
  ⟨rfl, rfl, rfl, ⟨_, rfl⟩, rfl, rfl, _, rfl⟩

theorem witness_UnknownWordRejected : f1.job = none ∧ 7 < (8#32).toNat ∧ 7 < (0xFFFFFFFF#32).toNat := by decide

theorem witness_ChecksAreMadeInOrder :
    (nine 3#16 1#16).job = none ∧ 7 < (8#32).toNat ∧
    (decodeWord 5#32 = .ok .encodeYuyv ∧
      badDimensions Instr.encodeYuyv.format (idle 2#16 1#16 []).width.toNat (idle 2#16 1#16 []).height.toNat = true) ∧
    (decodeWord 0#32 = .ok .encodeRgb24 ∧
      badDimensions Instr.encodeRgb24.format State.reset.width.toNat State.reset.height.toNat = false ∧
      (operands State.reset).breach State.reset.params Instr.encodeRgb24.format = some .rangesOverlap) ∧
    (decodeWord 4#32 = .ok .encodeNv12 ∧
      badDimensions Instr.encodeNv12.format f1.width.toNat f1.height.toNat = false ∧
      (operands f1).breach f1.params Instr.encodeNv12.format = none) := by decide

theorem witness_RefusedExactlyOnBreach :
    State.reset.job = none ∧
    (subsampled Instr.encodeI420.format = true → State.reset.width.toNat % 2 = 0 ∧ State.reset.height.toNat % 2 = 0) ∧
    f1.job = none ∧
    (subsampled Instr.encodeI420.format = true → f1.width.toNat % 2 = 0 ∧ f1.height.toNat % 2 = 0) := by decide

theorem witness_EarlierStatusMakesNoDifference : f1.job = none := rfl

theorem witness_IssuingFrame :
    (∃ t, regWrite f1 0x00 4#32 = .next t) ∧ (∃ t, regWrite f1 0x00 8#32 = .next t) ∧
    (∃ t, regWrite (busyHost []) 0x00 4#32 = .next t) :=
  ⟨⟨_, rfl⟩, ⟨_, rfl⟩, ⟨_, rfl⟩⟩

theorem witness_OutLenIsTheLength :
    f1.job = none ∧ (∃ t, exec .encodeNv12 f1 = .next t ∧ t.status.err = false) ∧
    (∃ t, exec .encodeNv12 (nine 3#16 1#16) = .next t ∧ t.status.err = true) ∧
    (7 < (8#32).toNat ∧ ∃ t, regWrite f1 0x00 8#32 = .next t) ∧
    ((0x14 : Fin 32) ≠ 0x00 ∧ ∃ t, regWrite f1 0x14 0#32 = .next t) ∧
    (lastState.engineTurn = some lastJob ∧ ∃ t, step lastState = .next t) ∧
    ((busyHost [.rd .outLen 0]).engineTurn = none ∧ (busyHost [.rd .outLen 0]).host.rest = .rd .outLen 0 :: [] ∧
      HostStmt.rd .outLen 0 ≠ .reset ∧ (∀ c, HostStmt.rd .outLen 0 ≠ .wr .cmd c) ∧
      (∀ off lanes, HostStmt.rd .outLen 0 ≠ .busWrite off lanes) ∧ ∃ t, step (busyHost [.rd .outLen 0]) = .next t) :=
  ⟨rfl, ⟨_, rfl, rfl⟩, ⟨_, rfl, rfl⟩, ⟨by decide, _, rfl⟩, ⟨by decide, _, rfl⟩, ⟨by decide, _, rfl⟩, rfl, rfl,
    by decide, by simp, by simp, _, rfl⟩

theorem witness_RejectionRepeats :
    (nine 3#16 1#16).job = none ∧ ∃ t, regWrite (nine 3#16 1#16) 0x00 3#32 = .next t ∧ t.status.err = true :=
  ⟨rfl, _, rfl, rfl⟩

theorem witness_AccumulatorsFitTheirRanges :
    (587000 : Int) ∈ [299000, 587000, 114000, -168736, -331264, 500000, -418688, -81312] ∧ (1 : Int) ∈ [0, 1] ∧
    ((500000, -418688, -81312, 128000000) : Int × Int × Int × Int) ∈ [(299000, 587000, 114000, 0),
      (-168736, -331264, 500000, 128000000), (500000, -418688, -81312, 128000000)] := by decide

theorem witness_LumaDependsOnOneSum :
    (10#8).toNat ≤ (10#8).toNat ∧ (20#8).toNat ≤ (21#8).toNat ∧ (0#8).toNat ≤ (255#8).toNat := by decide

theorem witness_TieDownOnlyAtTiePoints :
    fullClip (acc .y 100#8 150#8 200#8) * span .y % 255000000 ≠ 0 ∧
    ({ ch := .y, r := 100#8, g := 150#8, b := 200#8 } : TiePoint) ∉ [] ∧
    fullClip (acc .y 6#8 140#8 9#8) * span .y % 255000000 = 0 ∧
    ({ ch := .y, r := 6#8, g := 140#8, b := 9#8 } : TiePoint) ∈ [{ ch := .y, r := 6#8, g := 140#8, b := 9#8 }] := by
  decide

theorem witness_Chroma420IsTruncatedAverage : (Channel.v = .u ∨ Channel.v = .v) := .inr rfl

theorem witness_Chroma422TakesEvenColumn :
    (frameOf f2).w % 2 = 0 ∧ 1 < (frameOf f2).w / 2 ∧ 1 < (frameOf f2).h ∧ 2 < 3 := by decide

theorem witness_OutputLengths : 1920 % 2 = 0 ∧ 1080 % 2 = 0 := by decide

theorem witness_TenBitExpansion : 5 < 6 := by decide

theorem witness_BottomUpLayouts : 3 < (frameOf f2).w ∧ 1 < (frameOf f2).h := by decide

theorem witness_Yuv444Layout :
    3 < (frameOf f2).w ∧ 1 < (frameOf f2).h ∧ 23 < outputLen (frameOf f2).w (frameOf f2).h .yuv444 := by decide

theorem witness_I420Layout :
    3 < (frameOf f2).w ∧ 1 < (frameOf f2).h ∧ 1 < (frameOf f2).w / 2 ∧ 0 < (frameOf f2).h / 2 := by decide

theorem witness_Nv12Layout :
    3 < (frameOf f2).w ∧ 1 < (frameOf f2).h ∧ 1 < (frameOf f2).w / 2 ∧ 0 < (frameOf f2).h / 2 := by decide

theorem witness_PackedLayouts :
    (frameOf f2).w % 2 = 0 ∧ 1 < (frameOf f2).w / 2 ∧ 1 < (frameOf f2).h := by decide

theorem witness_P010Layout :
    3 < (frameOf f2).w ∧ 1 < (frameOf f2).h ∧ 1 < (frameOf f2).w / 2 ∧ 0 < (frameOf f2).h / 2 ∧
    22 % 2 = 0 ∧ 5 < 6 := by decide

theorem witness_EachOutputByteHasOneSample :
    badDimensions .p010 4 2 = false ∧ 0 < outputLen 4 2 .p010 ∧ 23 < outputLen 4 2 .p010 ∧
    siteOf .p010 4 2 23 = siteOf .p010 4 2 23 ∧ (1, 1) ∈ (siteOf .p010 4 2 16).sample.pixels := by decide

/-- The two memories differ outside the source range. -/
theorem witness_OutputDependsOnlyOnSource :
    badDimensions nv12Job.fmt nv12Job.w nv12Job.h = false ∧ f1.params.tieDown = (f1.store 0x100C 9#8).params.tieDown ∧
    (SameSource nv12Job f1.mem (f1.store 0x100C 9#8).mem ∧ f1.mem ≠ (f1.store 0x100C 9#8).mem) ∧
    5 < outputLen nv12Job.w nv12Job.h nv12Job.fmt := by
  refine ⟨rfl, rfl, ⟨fun a ha => ?_, by decide⟩, by decide⟩
  have hlt : a < 0x100C := by
    have h := ((inRange_iff _ _ _).1 ha).2
    exact h
  exact (Memory.read_write_other f1.mem 0x100C a 9#8 (by omega)).symm

theorem witness_CrossFormatLaws :
    (frameOf f2).w % 2 = 0 ∧ (frameOf f2).h % 2 = 0 ∧ 7 < (frameOf f2).w * (frameOf f2).h ∧
    1 < ((frameOf f2).w / 2) * ((frameOf f2).h / 2) ∧
    (12 % 4 = 0 ∧ 12 < outputLen (frameOf f2).w (frameOf f2).h .yuyv) ∧
    11 < 3 * (frameOf f2).w * (frameOf f2).h / 2 ∧
    (subsampled Instr.encodeUyvy.format = true ∧ (nine 3#16 1#16).width.toNat % 2 = 1 ∧
      (nine 3#16 1#16).job = none ∧ ∃ t, exec .encodeUyvy (nine 3#16 1#16) = .next t) :=
  ⟨by decide, by decide, by decide, by decide, by decide, by decide, rfl, rfl, rfl, _, rfl⟩

/-- With one offset left, and with more; each offset left can be drawn; the addresses asked for. -/
theorem witness_EngineStepWritesOneOutputByte :
    (lastState.engineTurn = some lastJob ∧ lastJob.nextOffset lastState.sched.pick = some 2 ∧
      lastState.admits lastJob 2 = true ∧ ∀ k, k < lastJob.len → k ∉ lastJob.written → k = 2) ∧
    ((running f1 .nv12 [0, 3]).engineTurn = some nv12Job ∧
      nv12Job.nextOffset (running f1 .nv12 [0, 3]).sched.pick = some 1 ∧
      (running f1 .nv12 [0, 3]).admits nv12Job 1 = true ∧ ∃ k, k < nv12Job.len ∧ k ∉ nv12Job.written ∧ k ≠ 1) ∧
    (5 < nv12Job.len ∧ 5 ∉ nv12Job.written) ∧
    (Inv lastState ∧ lastState.job = some lastJob ∧ 2 < lastJob.len ∧ 0x1000 ∈ lastState.requests lastJob 2) ∧
    lastState.sched.probe = 0 ∧
    (lastJob.inSource 0x1002 = true ∧
      { lastState with sched := { burst := 0, pick := 0, probe := 3, draws := 0 } }.sched.probe =
        0x1002 - lastJob.src + 1) :=
  ⟨by decide, ⟨by decide, by decide, by decide, 5, by decide⟩, by decide,
    ⟨lastState_inv, rfl, by decide, by decide⟩, rfl, by decide⟩

theorem witness_JobEndsWithTheLastWrite :
    Inv lastState ∧ lastState.engineTurn = some lastJob ∧ AllAdmitted lastState lastJob ∧
    ∃ t, step lastState = .next t :=
  ⟨lastState_inv, by decide, admitted_of_default rfl _, _, rfl⟩

theorem witness_FinishedJobHasWrittenItsOutput :
    Inv lastState ∧ lastState.job = some lastJob ∧ ∃ t, step lastState = .next t ∧ t.status.done = true :=
  ⟨lastState_inv, rfl, _, rfl, rfl⟩

/-- The host's step, a reset, and the engine's step. -/
theorem witness_JobMemoryInEveryStep :
    (∃ t, step (busyHost [.mw 0x3000 [1#8]]) = .next t) ∧ Inv (busyHost [.mw 0x3000 [1#8]]) ∧
    (busyHost [.mw 0x3000 [1#8]]).job = some nv12Job ∧
    (∃ t, step (busyHost [.reset]) = .next t) ∧ Inv (busyHost [.reset]) ∧
    (∃ t, step lastState = .next t) ∧ Inv lastState :=
  ⟨⟨_, rfl⟩, busyHost_inv _, rfl, ⟨_, rfl⟩, busyHost_inv _, ⟨_, rfl⟩, lastState_inv⟩

theorem witness_JobOperandsStayFixed :
    (busyHost [.wr .width 8#32]).job = some nv12Job ∧
    ∃ t, step (busyHost [.wr .width 8#32]) = .next t ∧ t.job = some nv12Job :=
  ⟨rfl, _, rfl, rfl⟩

/-- One unmapped destination byte is drawn while the others left are admitted; a stuck job. -/
theorem witness_UnadmittedRequestSticksTheEngine :
    ((notAdmitting (running f1 .nv12 [0, 3]) [⟨0x2001, 1⟩]).engineTurn = some nv12Job ∧
      nv12Job.nextOffset (notAdmitting (running f1 .nv12 [0, 3]) [⟨0x2001, 1⟩]).sched.pick = some 1 ∧
      (notAdmitting (running f1 .nv12 [0, 3]) [⟨0x2001, 1⟩]).admits nv12Job 1 = false ∧
      (notAdmitting (running f1 .nv12 [0, 3]) [⟨0x2001, 1⟩]).admits nv12Job 2 = true) ∧
    ({ lastState with job := some { lastJob with stuck := true } }.job = some { lastJob with stuck := true } ∧
      (∃ t, step { lastState with job := some { lastJob with stuck := true } } = .next t) ∧
      ∀ rest, { lastState with job := some { lastJob with stuck := true } }.host.rest ≠ .reset :: rest) :=
  ⟨by decide, rfl, ⟨_, rfl⟩, fun _ h => by cases h⟩

theorem witness_HostMemoryWrite :
    ((busyHost [.mw 0x2006 [1#8]]).engineTurn = none ∧
      (busyHost [.mw 0x2006 [1#8]]).host.rest = .mw 0x2006 (1#8 :: []) :: [] ∧
      (hostAccessStop (busyHost [.mw 0x2006 [1#8]]) 0x2006).isNone = true ∧
      nv12Job.inSource 0x2006 = false ∧ nv12Job.inDest 0x2006 = false) ∧
    ((busyHost [.mw 0x100C [1#8, 2#8]]).engineTurn = none ∧
      (busyHost [.mw 0x100C [1#8, 2#8]]).host.rest = .mw 0x100C (1#8 :: [2#8]) :: [] ∧
      (hostAccessStop (busyHost [.mw 0x100C [1#8, 2#8]]) 0x100C).isNone = true ∧
      nv12Job.inSource 0x100C = false ∧ nv12Job.inDest 0x100C = false) ∧
    ((busyHost [.mw 0x2005 [1#8, 2#8]]).engineTurn = none ∧
      (busyHost [.mw 0x2005 [1#8, 2#8]]).host.rest = .mw 0x2005 (1#8 :: [2#8]) :: [] ∧
      nv12Job.inDest 0x2005 = true ∧ nv12Job.inSource 0x100B = true) ∧
    ((busyHost [.mw 0x2005 []]).engineTurn = none ∧ (busyHost [.mw 0x2005 []]).host.rest = .mw 0x2005 [] :: []) := by
  decide

/-- The last byte, one of several, none, and a written byte of the destination of a running job. -/
theorem witness_HostMemoryRead :
    ((busyHost [.mr 0xFFFFFFFF 1 0 []]).engineTurn = none ∧
      (busyHost [.mr 0xFFFFFFFF 1 0 []]).host.rest = .mr 0xFFFFFFFF 1 0 [] :: [] ∧
      (hostAccessStop (busyHost [.mr 0xFFFFFFFF 1 0 []]) 0xFFFFFFFF).isNone = true) ∧
    ((busyHost [.mr 0x1000 2 0 []]).engineTurn = none ∧
      (busyHost [.mr 0x1000 2 0 []]).host.rest = .mr 0x1000 (0 + 2) 0 [] :: [] ∧
      (hostAccessStop (busyHost [.mr 0x1000 2 0 []]) 0x1000).isNone = true) ∧
    ((busyHost [.mr 0x1000 0 0 []]).engineTurn = none ∧
      (busyHost [.mr 0x1000 0 0 []]).host.rest = .mr 0x1000 0 0 [] :: []) ∧
    (Inv (busyHost [.mr 0x2003 1 0 []]) ∧ (busyHost [.mr 0x2003 1 0 []]).job = some nv12Job ∧ 3 ∈ nv12Job.written ∧
      (busyHost [.mr 0x2003 1 0 []]).engineTurn = none ∧
      (busyHost [.mr 0x2003 1 0 []]).host.rest = .mr (nv12Job.dst + 3) 1 0 [] :: [] ∧
      (hostAccessStop (busyHost [.mr 0x2003 1 0 []]) (nv12Job.dst + 3)).isNone = true) :=
  ⟨by decide, by decide, by decide, busyHost_inv _, rfl, by decide⟩

theorem witness_PseudoInstructions :
    (0xFFFFFFFF < 4294967296 ∧ 4294967295 < 0x100000000) ∧
    (∃ q, assemble ([.label 7, .wait 0] ++ .wait 1 :: [.rd .status 2]) = some q) ∧
    ((withHost f1 [.ifGoto 0 31 true 1, .label 1] 0).setVar 0 (.word 0x80000000#32)).engineTurn = none ∧
    ((withHost f1 [.ifGoto 0 31 true 1, .label 1] 0).setVar 0 (.word 0x80000000#32)).host.rest =
      .ifGoto 0 31 true 1 :: [.label 1] ∧
    assocGet ((withHost f1 [.ifGoto 0 31 true 1, .label 1] 0).setVar 0 (.word 0x80000000#32)).host.vars 0 =
      some (.word 0x80000000#32) ∧
    ((withHost f1 [.ifGoto 0 31 true 1, .label 1] 0).setVar 0 (.word 0x80000000#32)).varBit 0 31 = true ∧
    (withHost f1 [.ifGoto 0 31 true 1] 0).varBit 0 31 ≠ true ∧
    ((withHost f1 [.ifGoto 0 0 false 9] 0).varBit 0 0 = false ∧
      afterLabel 9 (withHost f1 [.ifGoto 0 0 false 9] 0).host.prog = none) ∧
    (assocGet (f1.setVar 0 (.bytes [1#8, 0x80#8])).host.vars 0 = some (.bytes [1#8, 0x80#8]) ∧
      [1#8, 0x80#8][15 / 8]? = some 0x80#8 ∧ 8 * [1#8, 0x80#8].length ≤ 16) ∧
    assocGet f1.host.vars 0 = none ∧
    afterLabel 1 ((withHost f1 [.ifGoto 0 31 true 1, .label 1] 0).setVar 0 (.word 0x80000000#32)).host.prog =
      some [] ∧
    ((withHost f1 (waitLoop 0 1) 0).job = none ∧
      (withHost f1 (waitLoop 0 1) 0).host.rest = .label 1 :: .rd .status 0 :: .ifGoto 0 0 true 1 :: []) ∧
    ((withHost (running f1 .nv12 []) (waitLoop 0 1) 3).job = some { nv12Job with written := [] } ∧
      3 ≤ (withHost (running f1 .nv12 []) (waitLoop 0 1) 3).sched.burst ∧
      (withHost (running f1 .nv12 []) (waitLoop 0 1) 3).host.rest =
        .label 1 :: .rd .status 0 :: .ifGoto 0 0 true 1 :: [] ∧
      afterLabel 1 (withHost (running f1 .nv12 []) (waitLoop 0 1) 3).host.prog =
        some (.rd .status 0 :: .ifGoto 0 0 true 1 :: [])) :=
  ⟨by decide, ⟨_, rfl⟩, by decide⟩

/-- From an idle state, a step of the host in a job, and the engine's last write. -/
theorem witness_StepKeepsInvariant :
    (Inv f1 ∧ ∃ t, step f1 = .next t) ∧
    (Inv (busyHost [.mr 0x2000 1 0 []]) ∧ ∃ t, step (busyHost [.mr 0x2000 1 0 []]) = .next t) ∧
    (Inv lastState ∧ ∃ t, step lastState = .next t) :=
  ⟨⟨idle_inv, _, rfl⟩, ⟨busyHost_inv _, _, rfl⟩, lastState_inv, _, rfl⟩

theorem witness_ParametersNeverChange : ∃ t, step lastState = .next t := ⟨_, rfl⟩

theorem witness_EveryStepMakesProgress :
    (lastState.job = some lastJob ∧ lastJob.stuck = false ∧ ∃ t, step lastState = .next t) ∧
    ((busyHost [.rd .status 0]).job = some nv12Job ∧ nv12Job.stuck = false ∧
      ∃ t, step (busyHost [.rd .status 0]) = .next t) :=
  ⟨⟨rfl, rfl, _, rfl⟩, rfl, rfl, _, rfl⟩

theorem witness_JobRunsToCompletion :
    Inv (busyHost []) ∧ (busyHost []).job = some nv12Job ∧ nv12Job.stuck = false ∧ (busyHost []).host.rest = [] ∧
    AllAdmitted (busyHost []) nv12Job :=
  ⟨busyHost_inv _, rfl, rfl, rfl, admitted_of_default rfl _⟩

theorem witness_CommandEncodesTheFrame :
    Inv f1 ∧ Ready f1 Instr.encodeP010.format ∧ f1.width.toNat ≠ 0 ∧ f1.height.toNat ≠ 0 ∧ f1.host.rest = [] ∧
    AllAdmitted f1 ((operands f1).job Instr.encodeP010.format) :=
  ⟨idle_inv, ⟨rfl, by decide, rfl⟩, by decide, by decide, rfl, admitted_of_default rfl _⟩

theorem witness_OrderOfWritesMakesNoDifference :
    Inv lastState ∧ lastState.job = some lastJob ∧ lastJob.stuck = false ∧ lastState.host.rest = [] ∧
    AllAdmitted lastState lastJob ∧ (∃ t, core.run lastJob.remaining.length lastState = .next t) ∧
    ∃ t', core.run lastJob.remaining.length
      { lastState with sched := { burst := 4, pick := 7, probe := 2, draws := 9 } } = .next t' :=
  ⟨lastState_inv, rfl, rfl, rfl, admitted_of_default rfl _, ⟨_, rfl⟩, _, rfl⟩

end Sys2Proof.Tests
end

section
/-! PROOFS. The parameters along a step (spec/00_scope.md R6): the engine's step keeps them, so every step does. -/

namespace Sys2Proof.Machine

/-- Neither a write of the engine nor its getting stuck touches the parameters. -/
theorem engineStep_params {j : Job} {s t : State} (h : engineStep j s = .next t) : t.params = s.params := by
  obtain ⟨-, hs⟩ | ⟨i, -, -, hs⟩ | ⟨i, -, -, hs⟩ := engineStep_cases j s
  · cases hs.symm.trans h
    exact State.finish_params s
  · cases hs.symm.trans h
    exact State.writeOut_params s j i
  · cases hs.symm.trans h
    rfl

theorem step_params {s t : State} (h : step s = .next t) : t.params = s.params := by
  obtain ⟨j, -, hengine⟩ | ⟨-, -, rfl⟩ | ⟨-, rest, -, rfl⟩ | ⟨-, st, rest, -, -, heffect⟩ := step_cases h
  · exact engineStep_params hengine
  · rfl
  · rw [State.blockReset_params, State.advance_params]
  · rw [heffect.params, State.advance_params]

/-- Settles O56, by the cases of a step: the engine's, the host at rest, a reset of the block, another statement. -/
theorem parametersNeverChange : Obligations.ParametersNeverChange := fun _ _ => step_params

end Sys2Proof.Machine
end

section
/-! PROOFS. The register window (spec/10_state.md R21 to R34): what a write and a read of each register do, the bits of
STATUS, and the step of a statement that accesses the window. -/

namespace Sys2Proof.Machine

/-! ### Offsets -/

/-- An offset is a register's exactly when R21 gives it to the register. -/
theorem regAt_eq_some_iff (off : Fin 32) (r : Reg) : regAt off = some r ↔ off = regOffset r := by
  cases r <;> revert off <;> decide

/-- The table of R21 lists each register with its offset. -/
theorem regOffset_of_mem_table {r : Reg} {off : Fin 32}
    (h : (r, off) ∈ [(Reg.cmd, 0x00), (Reg.status, 0x04), (Reg.width, 0x08), (Reg.height, 0x0C), (Reg.srcAddr, 0x10),
      (Reg.dstAddr, 0x14), (Reg.outLen, 0x18)]) : regOffset r = off := by
  cases r <;> revert off <;> decide

/-- An offset that R21 does not list is no register's (R33). -/
theorem regAt_reserved {off : Fin 32} (h : off ∉ [0x00, 0x04, 0x08, 0x0C, 0x10, 0x14, 0x18]) : regAt off = none := by
  revert off; decide

/-! ### Writes -/

/-- A write at offset 0 is a write of CMD (R22). -/
theorem regWrite_cmd (s : State) (c : Word) : regWrite s 0x00 c = cmdWrite s c := rfl

/-- A write of a register but CMD issues nothing: it stores while idle (R34). -/
theorem regWrite_store (s : State) {r : Reg} (v : Word) (hr : r ≠ .cmd) :
    regWrite s (regOffset r) v = .next (if s.busy then s else storeReg s r v) := by
  simp only [regWrite, regAt_regOffset]

theorem regWrite_idle {s : State} {r : Reg} (v : Word) (hr : r ≠ .cmd) (h : s.busy = false) :
    regWrite s (regOffset r) v = .next (storeReg s r v) := by
  rw [regWrite_store s v hr, h, if_neg Bool.false_ne_true]

/-- A read-only register ignores a write, busy or not (R27, R32). -/
theorem regWrite_readOnly (s : State) {r : Reg} (v : Word) (hr : r ≠ .cmd) (hstore : storeReg s r v = s) :
    regWrite s (regOffset r) v = .next s := by
  rw [regWrite_store s v hr, hstore, ite_self]

theorem regWrite_reserved (s : State) {off : Fin 32} (v : Word) (h : regAt off = none) :
    regWrite s off v = .next s := by
  simp only [regWrite, h]

theorem readOffset_reserved (s : State) {off : Fin 32} (h : regAt off = none) : readOffset s off = 0#32 := by
  simp only [readOffset, h]

theorem cmdWrite_of_ok (s : State) {c : Word} {i : Instr} (h : decodeWord c = .ok i) : cmdWrite s c = exec i s := by
  simp only [cmdWrite, h]

theorem cmdWrite_of_error (s : State) {c : Word} {e : DecodeError} (h : decodeWord c = .error e) :
    cmdWrite s c = issueUnknown s := by
  simp only [cmdWrite, h]

/-- A 16-bit field reads 0 above its bits (R28, R29). -/
theorem getLsbD_zeroExtended (w : Half) {k : Nat} (hk : 16 ≤ k) : (w.setWidth 32).getLsbD k = false := by
  rw [BitVec.getLsbD_setWidth, BitVec.getLsbD_of_ge w k hk, Bool.and_false]

/-- Settles O3: bits 31:16 of a zero-extended half word are 0. -/
theorem widthAndHeightRegisters : Obligations.WidthAndHeightRegisters := by
  refine ⟨fun s v => ⟨?_, ?_, ?_, ?_, ?_, ?_, rfl, rfl⟩, rfl, rfl⟩
  · exact regWrite_idle (r := .width) v (by decide)
  · exact regWrite_idle (r := .height) v (by decide)
  · exact fun h => ⟨regWrite_busy _ v h, regWrite_busy _ v h⟩
  · exact BitVec.toNat_setWidth_of_le (by decide)
  · exact BitVec.toNat_setWidth_of_le (by decide)
  · exact fun k hk => ⟨getLsbD_zeroExtended s.width hk, getLsbD_zeroExtended s.height hk⟩

/-- Settles O4: the engine's write of offset 0 is read back at DST_ADDR. -/
theorem addressRegisters : Obligations.AddressRegisters := by
  refine ⟨fun s v => ⟨?_, ?_, ?_, rfl, rfl, rfl, rfl, fun fmt => ⟨?_, ?_⟩⟩, rfl, rfl⟩
  · exact regWrite_idle (r := .srcAddr) v (by decide)
  · exact regWrite_idle (r := .dstAddr) v (by decide)
  · exact fun h => ⟨regWrite_busy _ v h, regWrite_busy _ v h⟩
  · simp [Frame.addr, State.frame, Operands.job, operands]
  · rw [State.writeOut_mem]
    exact Memory.read_write_same ..

/-! ### STATUS -/

/-- The word of STATUS fits its six lowest bits. -/
theorem statusWord_lt (busy : Bool) (st : Status) : (statusWord busy st).toNat < 2 ^ 6 := by
  obtain ⟨done, err, errcode⟩ := st
  cases errcode <;> revert busy done err <;> decide

theorem statusWord_bits (busy : Bool) (st : Status) :
    (statusWord busy st).getLsbD 0 = busy ∧ (statusWord busy st).getLsbD 1 = st.done ∧
    (statusWord busy st).getLsbD 2 = st.err ∧ (statusWord busy st).getLsbD 3 = false ∧
    ((statusWord busy st).extractLsb' 4 2).toNat = st.errcode.value := by
  obtain ⟨done, err, errcode⟩ := st
  cases errcode <;> revert busy done err <;> decide

/-- With no job STATUS reads its fields with BUSY = 0 (R23). -/
theorem readOffset_setStatus_idle {s : State} (st : Status) (hj : s.job = none) :
    readOffset { s with status := st } 0x04 = statusWord false st :=
  congrArg (statusWord · st) ((State.busy_eq_false s).2 hj)

/-- Settles O5: bits 3:0 and the code by `statusWord_bits`, bits 31:6 by the word's bound. -/
theorem statusBitsAreTheFields : Obligations.StatusBitsAreTheFields := by
  refine ⟨rfl, rfl, rfl, fun s hj => ?_, fun s => ?_⟩
  · exact ⟨readOffset_setStatus_idle _ hj, readOffset_setStatus_idle _ hj⟩
  · obtain ⟨hbusy, hdone, herr, hreserved, hcode⟩ := statusWord_bits s.busy s.status
    refine ⟨hbusy, hdone, herr, hcode, ?_, hreserved, fun k hk => ?_⟩
    · cases s.status.errcode <;> decide
    · exact Nat.testBit_lt_two_pow (lt_of_lt_of_le (statusWord_lt s.busy s.status) (Nat.pow_le_pow_right (by decide) hk))

/-- Settles O6: STATUS and OUT_LEN store nothing, and no register stands at a reserved offset. -/
theorem readOnlyOffsetsIgnoreWrites : Obligations.ReadOnlyOffsetsIgnoreWrites := by
  refine fun s v => ⟨?_, ?_, rfl, fun off hoff => ⟨?_, ?_⟩⟩
  · exact regWrite_readOnly s (r := .status) v (by decide) rfl
  · exact regWrite_readOnly s (r := .outLen) v (by decide) rfl
  · exact readOffset_reserved s (regAt_reserved hoff)
  · exact regWrite_reserved s v (regAt_reserved hoff)

/-! ### Steps that access the window -/

/-- The host's move past a statement changes no register. -/
theorem readReg_advance (s : State) (l : List HostStmt) (r : Reg) : readReg (s.advance l) r = readReg s r := by
  cases r <;> rfl

/-- The step of an `RD` sets its variable to what the register reads. -/
theorem step_rd {s : State} {r : Reg} {x : Nat} {rest : List HostStmt} (hturn : s.engineTurn = none)
    (hr : s.host.rest = .rd r x :: rest) :
    step s = .next ((s.advance rest).setVar x (.word (readOffset s (regOffset r)))) := by
  rw [step_of_stmt hturn hr, readOffset_regOffset, ← readReg_advance s rest]
  rfl

theorem step_wr {s : State} {r : Reg} {v : Word} {rest : List HostStmt} (hturn : s.engineTurn = none)
    (hr : s.host.rest = .wr r v :: rest) : step s = regWrite (s.advance rest) (regOffset r) v :=
  step_of_stmt hturn hr

/-- Settles O7: a busy block ignores writes, and the step of an `RD` is `step_rd`. -/
theorem busyWindowWritesIgnored : Obligations.BusyWindowWritesIgnored :=
  ⟨fun _ off v h => regWrite_busy off v h, fun _ _ _ _ hturn hr => step_rd hturn hr⟩

/-! ### Command words -/

theorem decodeWord_of_decodeTableWord {n w : Nat} {i : Instr} (h : decodeTableWord n w = some i) :
    decodeWord (tableWord n w) = .ok i := by
  simp only [decodeTableWord, bytesOfWord, decode, wordOfLanes_laneOf] at h
  cases hw : decodeWord (tableWord n w) with
  | ok k => simpa [hw] using h
  | error e => simp [hw] at h

/-- The word that `withFetchWord` puts before the host's statements is written in the next step. -/
theorem engineTurn_withFetchWord (s : State) (n w : Nat) : (s.withFetchWord n w).engineTurn = none := by
  cases hj : s.job with
  | none => exact engineTurn_of_idle hj
  | some j => exact engineTurn_of_burst hj (List.cons_ne_nil _ _) (.inr (Nat.succ_pos _))

/-- The host's step past that word leaves the state as it was. -/
theorem advance_withFetchWord (s : State) (n w : Nat) : (s.withFetchWord n w).advance s.host.rest = s := rfl

/-- Settles O12: the step is the statement's meaning in the advanced state; at CMD the word is decoded. -/
theorem stepRunsDecodedCommand : Obligations.StepRunsDecodedCommand := by
  refine ⟨?_, ?_, ?_, ?_, ?_, ?_, ?_⟩
  · exact fun s c rest i hturn hr hc => (step_wr hturn hr).trans (cmdWrite_of_ok _ hc)
  · exact fun s c rest e hturn hr hc => (step_wr hturn hr).trans (cmdWrite_of_error _ hc)
  · intro s w i hi
    rw [step_wr (engineTurn_withFetchWord s 32 w) rfl, advance_withFetchWord]
    exact cmdWrite_of_ok s (decodeWord_of_decodeTableWord hi)
  · exact fun s r off v rest hoff hturn hr => regOffset_of_mem_table hoff ▸ step_wr hturn hr
  · exact fun s r off x rest hoff hturn hr => regOffset_of_mem_table hoff ▸ step_rd hturn hr
  · exact fun s off lanes rest hturn hr => step_of_stmt hturn hr
  · exact fun s off width x rest hturn hr => step_of_stmt hturn hr

/-- Settles O13: a write to CMD is `cmdWrite`, and a busy block ignores it. -/
theorem commandWriteIssuesOnlyWhenIdle : Obligations.CommandWriteIssuesOnlyWhenIdle := by
  refine ⟨fun s c i h => cmdWrite_of_ok s h, fun s c e h => cmdWrite_of_error s h, fun s c h => regWrite_busy _ c h,
    fun i s h => ?_, fun _ => rfl⟩
  rw [exec_eq_issue, issue_busy _ h]

/-- While idle a command is rejected, refused or accepted alike whatever STATUS was: no check reads it, and rejection and
acceptance set it anew. -/
theorem issue_setStatus (fmt : PixelFormat) {s : State} (st : Status) (hj : s.job = none) :
    issue fmt { s with status := st } = issue fmt s := by
  obtain ⟨hbusy, -⟩ | ⟨-, hd, he⟩ | ⟨-, hd, r, hr, he⟩ | ⟨-, hd, hr, he⟩ := issue_cases fmt s
  · simp [State.busy, hj] at hbusy
  · rw [he]; exact issue_bad hj hd
  · rw [he]; exact issue_breach hj hd hr
  · rw [he]; exact issue_accept hj hd hr

theorem issueUnknown_idle {s : State} (hj : s.job = none) : issueUnknown s = .next (s.reject .invalidFormatName) := by
  simp [issueUnknown, (State.busy_eq_false s).2 hj]

/-- Settles O21: by `issue_setStatus` for a word that names a format; an unknown word is rejected in either state. -/
theorem earlierStatusMakesNoDifference : Obligations.EarlierStatusMakesNoDifference := by
  intro i c s st hj
  refine ⟨by rw [exec_eq_issue, exec_eq_issue, issue_setStatus _ st hj], ?_⟩
  rw [regWrite_cmd, regWrite_cmd]
  cases hc : decodeWord c with
  | ok k => rw [cmdWrite_of_ok _ hc, cmdWrite_of_ok _ hc, exec_eq_issue, exec_eq_issue, issue_setStatus _ st hj]
  | error e =>
    rw [cmdWrite_of_error _ hc, cmdWrite_of_error _ hc, issueUnknown_idle hj]
    exact issueUnknown_idle hj

/-! ### OUT_LEN -/

/-- No write of a register that only stores reaches OUT_LEN (R32). -/
theorem storeReg_outLen (s : State) (r : Reg) (v : Word) : (storeReg s r v).outLen = s.outLen := by cases r <;> rfl

/-- A write at an offset but CMD's leaves OUT_LEN. -/
theorem regWrite_outLen {s t : State} {off : Fin 32} {v : Word} (hoff : off ≠ 0x00) (h : regWrite s off v = .next t) :
    t.outLen = s.outLen := by
  cases hr : regAt off with
  | none => rw [regWrite_reserved s v hr] at h; cases h; rfl
  | some r =>
    obtain rfl := (regAt_eq_some_iff off r).1 hr
    rw [regWrite_store s v (fun hcmd => hoff (congrArg regOffset hcmd))] at h
    cases h
    split
    · rfl
    · exact storeReg_outLen s r v

/-- OUT_LEN after an accepted command, and no error (R32). -/
theorem accept_outLen {s : State} {fmt : PixelFormat} (hb : (operands s).breach s.params fmt = none) :
    (s.accept fmt (operands s)).status.err = false ∧
    (s.accept fmt (operands s)).outLen.toNat = outputLen s.width.toNat s.height.toNat fmt := by
  have hlt := outputLen_lt hb
  by_cases hlen : outputLen (operands s).w (operands s).h fmt = 0
  · rw [accept_empty hlen]
    exact ⟨rfl, hlen.symm⟩
  · rw [accept_some hlen]
    exact ⟨rfl, Nat.mod_eq_of_lt hlt⟩

theorem engineStep_outLen {j : Job} {s t : State} (h : engineStep j s = .next t) : t.outLen = s.outLen := by
  obtain ⟨-, hs⟩ | ⟨i, -, -, hs⟩ | ⟨i, -, -, hs⟩ := engineStep_cases j s <;> cases hs.symm.trans h
  · rfl
  · exact State.writeOut_outLen s j i
  · rfl

/-- A statement that neither writes in the window nor resets the block leaves OUT_LEN, as everything but the host's side
and memory. -/
theorem runStmt_outLen {s t : State} {rest : List HostStmt} {st : HostStmt} (hwr : ∀ c, st ≠ .wr .cmd c)
    (hbus : ∀ off lanes, st ≠ .busWrite off lanes) (hreset : st ≠ .reset) (h : runStmt s rest st = .next t) :
    t.outLen = s.outLen := by
  cases st with
  | wr r v =>
    refine regWrite_outLen (fun hoff => ?_) h
    obtain rfl := Option.some.inj ((regAt_regOffset r).symm.trans (congrArg regAt hoff))
    exact hwr v rfl
  | rd r x => cases h; rfl
  | busWrite off lanes => exact absurd rfl (hbus off lanes)
  | busRead off width x =>
    simp only [runStmt, busRead] at h
    split at h <;> cases h
    rfl
  | mw a bs =>
    cases bs with
    | nil => cases h; rfl
    | cons b bs =>
      obtain ⟨-, -, rfl⟩ := hostStore_next h
      split <;> rfl
  | mr a n x got =>
    cases n with
    | zero => cases h; rfl
    | succ n =>
      simp only [runStmt] at h
      obtain rfl := hostLoad_next h
      split <;> rfl
  | label l => cases h; rfl
  | ifGoto x bit v l =>
    simp only [runStmt] at h
    split at h
    · split at h <;> cases h
      rfl
    · cases h; rfl
  | reset => exact absurd rfl hreset

/-- Settles O23, by what each outcome of issuing, each write and each step makes of OUT_LEN. -/
theorem outLenIsTheLength : Obligations.OutLenIsTheLength := by
  refine ⟨?_, ?_, ?_, ?_, ?_, rfl⟩
  · intro i s t hj h
    rw [exec_eq_issue] at h
    obtain ⟨hbusy, -⟩ | ⟨-, -, he⟩ | ⟨-, -, r, -, he⟩ | ⟨-, -, hb, he⟩ := issue_cases i.format s
    · rw [(State.busy_eq_false s).2 hj] at hbusy
      cases hbusy
    · cases he.symm.trans h
      exact ⟨fun _ => rfl, nofun⟩
    · cases he.symm.trans h
    · cases he.symm.trans h
      obtain ⟨hok, hlen⟩ := accept_outLen hb
      exact ⟨fun herr => absurd (hok.symm.trans herr) Bool.false_ne_true, fun _ => hlen⟩
  · intro c s t hj hc h
    have hunknown := (decodeWord_error_iff c _).2 ⟨hc, rfl⟩
    rw [regWrite_cmd, cmdWrite_of_error s hunknown, issueUnknown_idle hj] at h
    cases h
    rfl
  · exact fun s t off v hoff h => regWrite_outLen hoff h
  · exact fun s t j hturn h => engineStep_outLen (step_of_engineTurn hturn ▸ h)
  · intro s t st rest hturn hr hreset hwr hbus h
    rw [step_of_stmt hturn hr] at h
    exact runStmt_outLen (s := s.advance rest) hwr hbus hreset h

end Sys2Proof.Machine
end

section
/-! PROOFS. Where the samples of an accepted frame lie (spec/42_layout_packers.md R154 to R163): the pixels an output byte
depends on are pixels of the frame, so the engine reads in the source range alone (spec/20_memory.md R62, R63), and two
memories that agree there give the same output. -/

namespace Sys2Proof.Machine

/-! ### The pixels of a sample -/

/-- Every pixel the sample depends on is one of a frame of w columns and h rows. -/
def Sample.Inside (t : Sample) (w h : Nat) : Prop := ∀ p ∈ t.pixels, p.1 < w ∧ p.2 < h

/-- A sample of one pixel of the frame is inside. -/
theorem Sample.inside_of_pixel {t : Sample} {x y w h : Nat} (ht : t.pixels = [(x, y)]) (hx : x < w) (hy : y < h) :
    t.Inside w h := by
  intro p hp
  rw [ht, List.mem_singleton] at hp
  exact hp ▸ ⟨hx, hy⟩

theorem Sample.pad_inside (x y w h : Nat) : (Sample.pad x y).Inside w h := by
  simp [Sample.Inside, Sample.pixels]

theorem planeAt_inside (ch : Channel) {w h k : Nat} (hk : k < w * h) : (planeAt ch w k).Inside w h :=
  have ⟨hx, hy, _⟩ := raster_inv hk
  Sample.inside_of_pixel rfl hx hy

/-- The four pixels of a block lie in the frame, whatever the parity of its size. -/
theorem planeAt420_inside (ch : Channel) {w h k : Nat} (hk : k < (w / 2) * (h / 2)) :
    (planeAt420 ch w k).Inside w h := by
  obtain ⟨hx, hy, -⟩ := raster_inv hk
  intro p hp
  simp only [planeAt420, Sample.pixels, List.mem_cons, List.not_mem_nil, or_false] at hp
  rcases hp with rfl | rfl | rfl | rfl <;> exact ⟨by dsimp only; omega, by dsimp only; omega⟩

/-! ### The sites of each layout -/

/-- Output pixel p of a bottom-up format is a pixel of the frame (R154). -/
theorem bottomUp_lt {w h p : Nat} (hp : p < w * h) : (bottomUp w h p).1 < w ∧ (bottomUp w h p).2 < h := by
  obtain ⟨hx, hy, -⟩ := raster_inv hp
  exact ⟨hx, Nat.sub_lt_of_lt (Nat.sub_lt (Nat.zero_lt_of_lt hy) Nat.one_pos)⟩

theorem siteRgb24_inside {w h i : Nat} (hi : i < 3 * (w * h)) : (siteRgb24 w h i).sample.Inside w h := by
  obtain ⟨hx, hy⟩ := bottomUp_lt (show i / 3 < w * h by omega)
  simp only [siteRgb24]
  split <;> exact Sample.inside_of_pixel rfl hx hy

theorem siteXrgb32_inside {w h i : Nat} (hi : i < 4 * (w * h)) : (siteXrgb32 w h i).sample.Inside w h := by
  obtain ⟨hx, hy⟩ := bottomUp_lt (show i / 4 < w * h by omega)
  simp only [siteXrgb32]
  split
  · exact Sample.inside_of_pixel rfl hx hy
  · exact Sample.inside_of_pixel rfl hx hy
  · exact Sample.inside_of_pixel rfl hx hy
  · exact Sample.pad_inside _ _ w h

theorem siteYuv444_inside {w h i : Nat} (hi : i < 3 * (w * h)) : (siteYuv444 w h i).sample.Inside w h := by
  unfold siteYuv444
  split
  · exact planeAt_inside .y ‹_›
  · split
    · exact planeAt_inside .u (by omega)
    · exact planeAt_inside .v (by omega)

theorem siteI420_inside {w h i : Nat} (hi : i < w * h + 2 * ((w / 2) * (h / 2))) :
    (siteI420 w h i).sample.Inside w h := by
  unfold siteI420
  split
  · exact planeAt_inside .y ‹_›
  · split
    · exact planeAt420_inside .u (by omega)
    · exact planeAt420_inside .v (by omega)

theorem siteNv12_inside {w h i : Nat} (hi : i < w * h + 2 * ((w / 2) * (h / 2))) :
    (siteNv12 w h i).sample.Inside w h := by
  unfold siteNv12
  split
  · exact planeAt_inside .y ‹_›
  · split
    · exact planeAt420_inside .u (by omega)
    · exact planeAt420_inside .v (by omega)

/-- The pair of pixels an offset of a packed 4:2:2 format belongs to lies in the frame, whose width is even (R159). -/
theorem pair_lt {w h i : Nat} (hw : w % 2 = 0) (hi : i < 2 * (w * h)) :
    2 * (i % (2 * w) / 4) + 1 < w ∧ i / (2 * w) < h := by
  obtain ⟨hx, hy, -⟩ := raster_inv (show i < 2 * w * h by rwa [Nat.mul_assoc])
  exact ⟨by omega, hy⟩

theorem siteYuyv_inside {w h i : Nat} (hw : w % 2 = 0) (hi : i < 2 * (w * h)) :
    (siteYuyv w h i).sample.Inside w h := by
  obtain ⟨hx, hy⟩ := pair_lt hw hi
  simp only [siteYuyv]
  split <;> exact Sample.inside_of_pixel rfl (by omega) hy

theorem siteUyvy_inside {w h i : Nat} (hw : w % 2 = 0) (hi : i < 2 * (w * h)) :
    (siteUyvy w h i).sample.Inside w h := by
  obtain ⟨hx, hy⟩ := pair_lt hw hi
  simp only [siteUyvy]
  split <;> exact Sample.inside_of_pixel rfl (by omega) hy

theorem sampleP010_inside {w h k : Nat} (hk : k < w * h + 2 * ((w / 2) * (h / 2))) :
    (sampleP010 w h k).Inside w h := by
  unfold sampleP010
  split
  · exact planeAt_inside .y ‹_›
  · split
    · exact planeAt420_inside .u (by omega)
    · exact planeAt420_inside .v (by omega)

theorem siteP010_inside {w h i : Nat} (hi : i < 2 * (w * h + 2 * ((w / 2) * (h / 2)))) :
    (siteP010 w h i).sample.Inside w h := by
  unfold siteP010
  split <;> exact sampleP010_inside (by omega)

/-- Every output byte of a frame of an accepted size is made of pixels of the frame (R163). -/
theorem siteOf_inside {fmt : PixelFormat} {w h i : Nat} (hd : badDimensions fmt w h = false)
    (hi : i < outputLen w h fmt) : (siteOf fmt w h i).sample.Inside w h := by
  rw [badDimensions_iff] at hd
  cases fmt with
  | rgb24 => exact siteRgb24_inside hi
  | xrgb32 => exact siteXrgb32_inside hi
  | yuv444 => exact siteYuv444_inside hi
  | i420 => exact siteI420_inside hi
  | nv12 => exact siteNv12_inside hi
  | yuyv => exact siteYuyv_inside (hd rfl).1 hi
  | uyvy => exact siteUyvy_inside (hd rfl).1 hi
  | p010 => exact siteP010_inside hi

/-! ### Reads and output of a frame -/

/-- What an output byte depends on lies in the source range (spec/20_memory.md R52). -/
theorem Frame.siteReads_inRange (f : Frame) {fmt : PixelFormat} {i a : Nat} (hd : badDimensions fmt f.w f.h = false)
    (hi : i < outputLen f.w f.h fmt) (ha : a ∈ f.siteReads (siteOf fmt f.w f.h i)) :
    inRange f.src (sourceLen f.w f.h) a = true := by
  obtain ⟨p, hp, c, hc, rfl⟩ := f.mem_sampleReads _ ha
  obtain ⟨hx, hy⟩ := siteOf_inside hd hi p hp
  exact (inRange_iff _ _ _).2 (f.addr_lt hx hy hc)

/-- Two memories with the same bytes in the source range give the same output. -/
theorem Frame.out_congr (f : Frame) (m : Memory) {fmt : PixelFormat} {i : Nat} (hd : badDimensions fmt f.w f.h = false)
    (hi : i < outputLen f.w f.h fmt)
    (hm : ∀ a, inRange f.src (sourceLen f.w f.h) a = true → m.read a = f.mem.read a) :
    (f.withMem m).out fmt i = f.out fmt i :=
  f.siteByte_congr_reads m _ (fun a ha => hm a (f.siteReads_inRange hd hi ha))

end Sys2Proof.Machine
end

section
/-! PROOFS. The machine's invariant along a step: what a step leaves of an active job, and the bytes it has written
(spec/10_state.md R23 to R26, R32, R34, R35, spec/20_memory.md R62). -/

namespace Sys2Proof.Machine

/-! ### What a step keeps of the block while a job is active -/

/-- The registers, STATUS but BUSY, and the parameters are the same in both states. -/
structure BlockKept (s t : State) : Prop where
  params  : t.params = s.params
  width   : t.width = s.width
  height  : t.height = s.height
  srcAddr : t.srcAddr = s.srcAddr
  dstAddr : t.dstAddr = s.dstAddr
  outLen  : t.outLen = s.outLen
  status  : t.status = s.status

theorem BlockKept.refl (s : State) : BlockKept s s := ⟨rfl, rfl, rfl, rfl, rfl, rfl, rfl⟩

theorem HostEffect.blockKept {s t : State} {j : Job} (h : HostEffect s t) (hj : s.job = some j) : BlockKept s t :=
  have ⟨_, hwidth, hheight, hsrc, hdst, houtLen, hstatus, _⟩ := h.of_job hj
  ⟨h.params, hwidth, hheight, hsrc, hdst, houtLen, hstatus⟩

/-- A write that is not the last keeps the block as it is. -/
theorem State.writeOut_blockKept {s : State} {j : Job} {i : Nat}
    (h : { j with written := insertOffset i j.written : Job }.remaining ≠ []) : BlockKept s (s.writeOut j i) := by
  constructor
  case status => exact (s.writeOut_more j i h).2
  all_goals simp

/-- Whatever step is taken, a job that is still active after it has the registers, OUT_LEN, STATUS and fields it had,
but for `written` and `stuck`, and no written offset is forgotten. -/
theorem step_keeps_job {s t : State} {j j' : Job} (hj : s.job = some j) (h : step s = .next t)
    (hj' : t.job = some j') :
    BlockKept s t ∧ { j' with written := j.written, stuck := j.stuck } = j ∧ ∀ i, i ∈ j.written → i ∈ j'.written := by
  obtain ⟨k, hturn, hengine⟩ | ⟨-, -, rfl⟩ | ⟨-, rest, -, rfl⟩ | ⟨-, st, rest, -, -, heffect⟩ := step_cases h
  · obtain rfl : k = j := Option.some.inj ((engineTurn_some hturn).1.symm.trans hj)
    obtain ⟨-, hs⟩ | ⟨i, -, -, hs⟩ | ⟨i, -, -, hs⟩ := engineStep_cases k s <;> cases hs.symm.trans hengine
    · cases hj'
    · by_cases hlast : { k with written := insertOffset i k.written : Job }.remaining = []
      · rw [(s.writeOut_last k i hlast).1] at hj'
        cases hj'
      · rw [(s.writeOut_more k i hlast).1] at hj'
        cases hj'
        exact ⟨s.writeOut_blockKept hlast, rfl, fun c hc => (mem_insertOffset i c _).2 (.inr hc)⟩
    · cases hj'
      exact ⟨{ BlockKept.refl s with }, rfl, fun _ hc => hc⟩
  · cases hj.symm.trans hj'
    exact ⟨.refl _, rfl, fun _ hc => hc⟩
  · cases hj'
  · have hadv : (s.advance rest).job = some j := hj
    rw [(heffect.of_job hadv).1] at hj'
    cases hadv.symm.trans hj'
    exact ⟨{ heffect.blockKept hadv with }, rfl, fun _ hc => hc⟩

/-- Settles O49: the registers and the job's fields by `step_keeps_job`. -/
theorem jobOperandsStayFixed : Obligations.JobOperandsStayFixed := by
  intro s t j j' hj h hj'
  obtain ⟨hkept, hfields, hwritten⟩ := step_keeps_job hj h hj'
  exact ⟨hkept.width, hkept.height, hkept.srcAddr, hkept.dstAddr, hkept.outLen, hkept.status, hfields, hwritten⟩

/-! ### The ranges and requests of an accepted job -/

namespace JobInv

variable {s t : State} {j : Job}

theorem lt_outputLen (h : JobInv s j) {i : Nat} (hi : i < j.len) : i < outputLen j.w j.h j.fmt := h.len ▸ hi

/-- The destination range passes no address of the memory space (spec/20_memory.md R54). -/
theorem dst_add_lt (h : JobInv s j) {i : Nat} (hi : i < j.len) : j.dst + i < Config.memSize := by
  obtain ⟨-, hdst, -⟩ := (contractBreach_none_iff ..).1 h.contract
  have : Config.memSize = 4294967296 := rfl
  omega

/-- An address of the source is none of the destination's (spec/20_memory.md R55). -/
theorem ne_dst_add (h : JobInv s j) {a i : Nat} (ha : j.inSource a = true) (hi : i < j.len) : a ≠ j.dst + i := by
  rintro rfl
  have hout : inRange j.dst j.len (j.dst + i) = false := contract_disjoint h.contract ha
  rw [(inRange_iff _ _ _).2 (by omega)] at hout
  cases hout

/-- A job with an output byte has source bytes. -/
theorem sourceLen_pos (h : JobInv s j) {i : Nat} (hi : i < j.len) : 0 < sourceLen j.w j.h := by
  have hlen := h.lt_outputLen hi
  refine Nat.mul_pos (by decide) (Nat.pos_of_ne_zero fun hempty => ?_)
  rw [outputLen_of_empty j.fmt (Nat.mul_eq_zero.1 hempty)] at hlen
  omega

/-- The engine asks for the byte it writes and for source bytes, and for nothing else. -/
theorem requests_subset (h : JobInv s j) {i a : Nat} (hi : i < j.len) (ha : a ∈ s.requests j i) :
    a = j.dst + i ∨ j.inSource a = true := by
  rcases List.mem_cons.1 ha with hwrite | hread
  · exact .inl hwrite
  · right
    rcases List.mem_append.1 hread with hextra | hneeded
    · unfold State.extraRead at hextra
      split at hextra
      · cases hextra
      · rename_i k _
        rw [List.mem_singleton.1 hextra]
        have := Nat.mod_lt k (h.sourceLen_pos hi)
        exact (inRange_iff _ _ _).2 (by omega)
    · exact (s.frame j).siteReads_inRange h.dimensions (h.lt_outputLen hi) hneeded

/-- The platform that admits the job's ranges admits the engine's write of an offset. -/
theorem admits (h : JobInv s j) (hall : AllAdmitted s j) {i : Nat} (hi : i < j.len) : s.admits j i = true := by
  refine List.all_eq_true.2 fun a ha => ?_
  rw [hall a ?_, Bool.not_false]
  rcases h.requests_subset hi ha with rfl | hsource
  · exact .inr ((inRange_iff _ _ _).2 (by omega))
  · exact .inl hsource

/-- The output of a job's frame is the same while its source bytes and the tie parameter are. -/
theorem out_congr (h : JobInv s j) (hparams : t.params = s.params) (hsource : SameSource j t.mem s.mem) {i : Nat}
    (hi : i < j.len) : (t.frame j).out j.fmt i = (s.frame j).out j.fmt i := by
  have hframe : t.frame j = (s.frame j).withMem t.mem := by simp only [State.frame, hparams]
  rw [hframe]
  exact (s.frame j).out_congr t.mem h.dimensions (h.lt_outputLen hi) hsource

/-! ### The invariant of an active job -/

/-- A step that keeps the block and the source, and after which the written offsets are those of `l` and hold their
output bytes, keeps the invariant of the job. -/
theorem of_written (h : JobInv s j) (hkept : BlockKept s t) (hsource : SameSource j t.mem s.mem) {l : List Nat}
    (hrising : l.Pairwise (· < ·)) (hinside : ∀ i ∈ l, i < j.len)
    (hunfinished : { j with written := l : Job }.remaining ≠ [])
    (hbytes : ∀ i ∈ l, t.mem.read (j.dst + i) = (s.frame j).out j.fmt i) : JobInv t { j with written := l } where
  width := hkept.width ▸ h.width
  height := hkept.height ▸ h.height
  srcAddr := hkept.srcAddr ▸ h.srcAddr
  dstAddr := hkept.dstAddr ▸ h.dstAddr
  len := h.len
  outLen := hkept.outLen ▸ h.outLen
  dimensions := h.dimensions
  contract := hkept.params ▸ h.contract
  status := hkept.status ▸ h.status
  rising := hrising
  inside := hinside
  unfinished := hunfinished
  bytes := fun i hi => (hbytes i hi).trans (h.out_congr hkept.params hsource (hinside i hi)).symm

/-- A step that keeps the block and every byte of the job's ranges keeps the invariant of the job. -/
theorem of_ranges (h : JobInv s j) (hkept : BlockKept s t)
    (hranges : ∀ a, j.inSource a = true ∨ j.inDest a = true → t.mem.read a = s.mem.read a) : JobInv t j := by
  refine h.of_written hkept (fun a ha => hranges a (.inl ha)) h.rising h.inside h.unfinished fun i hi => ?_
  have hdest : j.inDest (j.dst + i) = true := (inRange_iff _ _ _).2 (by have := h.inside i hi; omega)
  rw [hranges _ (.inr hdest), h.bytes i hi]

/-- The engine's write of an offset that is not the last keeps the invariant of the job. -/
theorem writeOut (h : JobInv s j) {i : Nat} (hi : i ∈ j.remaining)
    (hmore : { j with written := insertOffset i j.written : Job }.remaining ≠ []) :
    JobInv (s.writeOut j i) { j with written := insertOffset i j.written } := by
  have hlt : i < j.len := ((Job.mem_remaining j i).1 hi).1
  refine h.of_written (s.writeOut_blockKept hmore) ?_ (insertOffset_rising i _ h.rising) ?_ hmore ?_
  · intro a ha
    rw [State.writeOut_mem, Memory.read_write_other _ _ _ _ (h.ne_dst_add ha hlt)]
  · intro k hk
    rcases (mem_insertOffset i k _).1 hk with rfl | hk
    · exact hlt
    · exact h.inside k hk
  · intro k hk
    rw [State.writeOut_mem, Memory.read_write]
    rcases (mem_insertOffset i k _).1 hk with rfl | hk
    · rw [if_pos rfl]
    · split
      · rename_i heq
        rw [Nat.add_left_cancel heq]
      · exact h.bytes k hk

/-- Getting stuck changes nothing the invariant speaks of. -/
theorem stick (h : JobInv s j) :
    JobInv { s with job := some { j with stuck := true }, sched := s.sched.redraw } { j with stuck := true } :=
  { h with }

/-- The job of a command that is accepted with a byte to write satisfies its invariant. -/
theorem of_accept {fmt : PixelFormat} (hd : badDimensions fmt s.width.toNat s.height.toNat = false)
    (hb : (operands s).breach s.params fmt = none) (hlen : outputLen (operands s).w (operands s).h fmt ≠ 0) :
    JobInv (s.accept fmt (operands s)) ((operands s).job fmt) := by
  rw [accept_some hlen]
  exact
    { width := rfl
      height := rfl
      srcAddr := rfl
      dstAddr := rfl
      len := rfl
      outLen := by
        have := outputLen_lt hb
        rw [BitVec.toNat_ofNat, Nat.mod_eq_of_lt (by omega)]
        rfl
      dimensions := hd
      contract := hb
      status := rfl
      rising := .nil
      inside := fun i hi => absurd hi List.not_mem_nil
      unfinished := List.ne_nil_of_mem ((Job.mem_remaining _ 0).2 ⟨Nat.pos_of_ne_zero hlen, List.not_mem_nil⟩)
      bytes := fun i hi => absurd hi List.not_mem_nil }

end JobInv

/-! ### The invariant of the machine -/

/-- What the invariant asks of STATUS: ERRCODE is not 0 exactly when ERR = 1, and DONE and ERR are never both 1. -/
def Status.Consistent (st : Status) : Prop :=
  (st.errcode ≠ .none ↔ st.err = true) ∧ ¬ (st.done = true ∧ st.err = true)

theorem Status.consistent_cleared : Status.cleared.Consistent := by simp [Consistent, cleared]

theorem Status.consistent_finished : Status.finished.Consistent := by simp [Consistent, finished]

theorem Status.consistent_rejected {e : ErrCode} (he : e ≠ .none) : (Status.rejected e).Consistent := by
  simp [Consistent, rejected, he]

/-- A statement keeps memory in its canonical form. -/
theorem HostEffect.mem_wf {s t : State} (h : HostEffect s t) (hmem : Memory.wf s.mem) : Memory.wf t.mem := by
  cases h with
  | hostOnly => exact hmem
  | stored _ a b ha => exact Memory.wf_write b hmem ha
  | reg r v => cases r <;> exact hmem
  | rejected => exact hmem
  | accepted => simp only [State.accept]; split <;> exact hmem

namespace Inv

variable {s t : State} {j : Job}

theorem consistent (h : Inv s) : s.status.Consistent := ⟨h.errcode, h.oneOf⟩

theorem of_idle (hmem : Memory.wf s.mem) (hstatus : s.status.Consistent) (hj : s.job = none) : Inv s :=
  ⟨hmem, hstatus.1, hstatus.2, fun _ h => nomatch hj.symm.trans h⟩

theorem of_job (hmem : Memory.wf s.mem) (hj : s.job = some j) (h : JobInv s j) : Inv s := by
  obtain ⟨herrcode, honeOf⟩ : s.status.Consistent := h.status ▸ Status.consistent_cleared
  exact ⟨hmem, herrcode, honeOf, fun k hk => Option.some.inj (hj.symm.trans hk) ▸ h⟩

/-- The invariant does not speak of the host, nor of whose turn it is. -/
theorem advance (h : Inv s) (rest : List HostStmt) : Inv (s.advance rest) :=
  ⟨h.mem, h.errcode, h.oneOf, fun _ hj => { h.job _ hj with }⟩

theorem finish (h : Inv s) : Inv s.finish := of_idle h.mem Status.consistent_finished rfl

theorem blockReset (h : Inv s) : Inv s.blockReset := of_idle h.mem Status.consistent_cleared rfl

theorem writeOut (h : Inv s) (hj : s.job = some j) {i : Nat} (hi : i ∈ j.remaining) : Inv (s.writeOut j i) := by
  have hjob := h.job j hj
  have hmem : Memory.wf (s.writeOut j i).mem := by
    rw [State.writeOut_mem]
    exact Memory.wf_write _ h.mem (hjob.dst_add_lt ((Job.mem_remaining j i).1 hi).1)
  by_cases hlast : { j with written := insertOffset i j.written : Job }.remaining = []
  · obtain ⟨hnone, hstatus⟩ := s.writeOut_last j i hlast
    exact of_idle hmem (hstatus ▸ Status.consistent_finished) hnone
  · exact of_job hmem (s.writeOut_more j i hlast).1 (hjob.writeOut hi hlast)

theorem of_engineStep (h : Inv s) (hj : s.job = some j) (hs : engineStep j s = .next t) : Inv t := by
  obtain ⟨-, he⟩ | ⟨i, hi, -, he⟩ | ⟨i, -, -, he⟩ := engineStep_cases j s <;> cases he.symm.trans hs
  · exact h.finish
  · exact h.writeOut hj hi
  · exact of_job h.mem rfl (h.job j hj).stick

theorem accept (h : Inv s) {fmt : PixelFormat} (hd : badDimensions fmt s.width.toNat s.height.toNat = false)
    (hb : (operands s).breach s.params fmt = none) : Inv (s.accept fmt (operands s)) := by
  by_cases hlen : outputLen (operands s).w (operands s).h fmt = 0
  · rw [accept_empty hlen]
    exact of_idle h.mem Status.consistent_finished rfl
  · have hjob := JobInv.of_accept hd hb hlen
    rw [accept_some hlen] at hjob ⊢
    exact of_job h.mem rfl hjob

/-- With a job active a statement keeps all the invariant speaks of; without one it leaves a consistent STATUS or starts a
job. -/
theorem of_hostEffect (h : Inv s) (heffect : HostEffect s t) : Inv t := by
  cases hj : s.job with
  | some j =>
    obtain ⟨hsame, -, -, -, -, -, -, -, hranges⟩ := heffect.of_job hj
    exact of_job (heffect.mem_wf h.mem) (hsame.trans hj) ((h.job j hj).of_ranges (heffect.blockKept hj) hranges)
  | none =>
    cases heffect with
    | hostOnly => exact of_idle h.mem h.consistent hj
    | stored _ a b ha => exact of_idle (Memory.wf_write b h.mem ha) h.consistent hj
    | reg r v => cases r <;> exact of_idle h.mem h.consistent hj
    | rejected e _ he => exact of_idle h.mem (Status.consistent_rejected he) hj
    | accepted fmt _ hd hb => exact h.accept hd hb

end Inv

/-- Settles O55, by the cases of a step: the engine's, the host at rest, a reset of the block, another statement. -/
theorem stepKeepsInvariant : Obligations.StepKeepsInvariant := by
  intro s t h hs
  obtain ⟨j, hturn, hengine⟩ | ⟨-, -, rfl⟩ | ⟨-, rest, -, rfl⟩ | ⟨-, st, rest, -, -, heffect⟩ := step_cases hs
  · exact h.of_engineStep (engineTurn_some hturn).1 hengine
  · exact h
  · exact (h.advance rest).blockReset
  · exact (h.advance rest).of_hostEffect heffect

/-! ### The last write -/

/-- One offset is left exactly when LEN - 1 are written, so the write of a left offset is the last one then. -/
theorem JobInv.insert_remaining_eq_nil_iff {s : State} {j : Job} (h : JobInv s j) {i : Nat} (hi : i ∈ j.remaining) :
    { j with written := insertOffset i j.written : Job }.remaining = [] ↔ j.written.length + 1 = j.len := by
  have hleft := remaining_length_insert j i hi
  have htotal := remaining_length_add j h.rising h.inside
  rw [← List.length_eq_zero_iff]
  omega

/-- Settles O46: every request is admitted, so the step writes an offset, and the job ends if none is left then. -/
theorem jobEndsWithTheLastWrite : Obligations.JobEndsWithTheLastWrite := by
  intro s t j h hturn hall hs
  rw [step_of_engineTurn hturn] at hs
  have hjob := h.job j (engineTurn_some hturn).1
  obtain ⟨hdone, -⟩ | ⟨i, hi, -, he⟩ | ⟨i, hi, hstuck, -⟩ := engineStep_cases j s
  · exact absurd hdone hjob.unfinished
  · cases he.symm.trans hs
    rw [← hjob.insert_remaining_eq_nil_iff hi, State.busy_eq_false]
    by_cases hlast : { j with written := insertOffset i j.written : Job }.remaining = []
    · obtain ⟨hnone, hstatus⟩ := s.writeOut_last j i hlast
      simp [hlast, hnone, hstatus, Status.finished]
    · obtain ⟨hsome, hstatus⟩ := s.writeOut_more j i hlast
      simp [hlast, hsome, hstatus, hjob.status, Status.cleared]
  · have hadmits := hjob.admits hall ((Job.mem_remaining j i).1 hi).1
    cases hadmits.symm.trans hstuck

end Sys2Proof.Machine
end

section
/-! PROOFS. The shape of a register access (spec/20_memory.md R56, R57), and the refusal of a command whose ranges breach
the contract (R51, R54, R55, R59). -/

namespace Sys2Proof.Machine

/-! ### Register accesses -/

theorem aligned32_iff (off : Fin 32) (width : Nat) : aligned32 off width = true ↔ width = 4 ∧ off.val % 4 = 0 := by
  simp [aligned32]

theorem busWrite_four (s : State) (off : Fin 32) (b0 b1 b2 b3 : Byte) :
    busWrite s off [b0, b1, b2, b3] =
      if aligned32 off 4 then regWrite s off (wordOfLanes b0 b1 b2 b3) else .refused .registerAccessShape := rfl

theorem busWrite_badShape (s : State) {off : Fin 32} {lanes : List Byte} (h : aligned32 off lanes.length ≠ true) :
    busWrite s off lanes = .refused .registerAccessShape := by
  unfold busWrite
  split
  · exact if_neg h
  · rfl

theorem busRead_badShape (s : State) {off : Fin 32} {width : Nat} (x : Nat) (h : aligned32 off width ≠ true) :
    busRead s off width x = .refused .registerAccessShape :=
  if_neg h

/-- Settles O8: the lanes of an aligned word make the word again (`wordOfLanes_laneOf`). -/
theorem registerAccessShapes : Obligations.RegisterAccessShapes := by
  refine ⟨?_, ?_, ?_, ?_, ?_⟩
  · exact fun s off lanes h => busWrite_badShape s (mt (aligned32_iff off _).1 h)
  · exact fun s off width x h => busRead_badShape s x (mt (aligned32_iff off _).1 h)
  · intro s off w h
    rw [busWrite_four, if_pos ((aligned32_iff off 4).2 ⟨rfl, h⟩), wordOfLanes_laneOf]
  · exact fun s off x h => if_pos ((aligned32_iff off 4).2 ⟨rfl, h⟩)
  · exact fun w k n _ hn => laneOf_getLsbD w k n hn

/-! ### The contract on a command's ranges -/

/-- The contract is breached exactly when a range passes the top, the two share an address, or an address of either lies
in the register window or has side effects. -/
theorem contractBreach_ne_none_iff (p : Params) (a n b m : Nat) :
    contractBreach p a n b m ≠ none ↔
      4294967296 < a + n ∨ 4294967296 < b + m ∨ (∃ x, inRange a n x = true ∧ inRange b m x = true) ∨
      (∃ x, (inRange a n x = true ∨ inRange b m x = true) ∧ hasAny (windowRegions p) x = true) ∨
      ∃ x, (inRange a n x = true ∨ inRange b m x = true) ∧ hasAny p.sideEffects x = true := by
  simp only [Ne, contractBreach_none_iff, not_and_or, not_le, Bool.not_eq_false, rangesMeet_iff, meetsAny_iff, or_and_right,
    exists_or, or_assoc]

/-- An idle command of good dimensions is refused exactly when its contract is breached. -/
theorem issue_refused_iff {s : State} {fmt : PixelFormat} (hj : s.job = none)
    (hd : badDimensions fmt s.width.toNat s.height.toNat = false) :
    (∃ r, issue fmt s = .refused r) ↔ (operands s).breach s.params fmt ≠ none := by
  cases hb : (operands s).breach s.params fmt with
  | none => simp [issue_accept hj hd hb]
  | some r => simp [issue_breach hj hd hb]

/-- Settles O20: the command is refused on a breach (`issue_refused_iff`), which `contractBreach_ne_none_iff` says of
addresses; the regions' own lemmas say which addresses the window's and the devices' are. -/
theorem refusedExactlyOnBreach : Obligations.RefusedExactlyOnBreach := by
  intro i s hj hd j
  rw [exec_eq_issue, issue_refused_iff hj ((badDimensions_iff ..).2 hd)]
  refine (contractBreach_ne_none_iff ..).trans ?_
  simp only [hasAny_windowRegions_iff, hasAny_iff s.params.sideEffects, exists_and_left]
  rfl

/-! ### What the output depends on -/

/-- Settles O43: the two frames differ in memory alone, so `Frame.out_congr` applies. -/
theorem outputDependsOnlyOnSource : Obligations.OutputDependsOnlyOnSource := by
  intro s s' j hd hties hsource i hi
  have hframe : s'.frame j = (s.frame j).withMem s'.mem := by simp only [State.frame, hties]
  rw [hframe]
  exact ((s.frame j).out_congr s'.mem hd hi fun a ha => (hsource a ha).symm).symm

end Sys2Proof.Machine
end

section
/-! PROOFS. The host's accesses to memory, one byte in each step (spec/20_memory.md R64, R66, R67, spec/30_encoding.md
R87, spec/70_reset_and_hazards.md R236, R237). -/

namespace Sys2Proof.Machine

/-! ### Writes -/

/-- A write of ordinary memory outside the ranges of an active job stores the byte. -/
theorem hostStore_ordinary {s : State} {a : Nat} (b : Byte) (hj : s.inJob a = false) (h : hostAccessStop s a = none) :
    hostStore s a b = .next (s.store a b) := by
  simp [hostStore, hj, h]

/-- A write in a range of an active job is refused, whatever its other stops are (R236, R237). -/
theorem hostStore_inJob {s : State} {a : Nat} (b : Byte) (h : s.inJob a = true) :
    hostStore s a b = .refused .hostWriteDuringJob := by
  simp [hostStore, h]

/-- What the host has to run after the first byte of an `MW` at `a` with the bytes `bs` after it. -/
def afterByteWrite (a : Nat) (bs : List Byte) (rest : List HostStmt) : List HostStmt :=
  if bs.isEmpty then rest else .mw (a + 1) bs :: rest

theorem afterByteWrite_nil (a : Nat) (rest : List HostStmt) : afterByteWrite a [] rest = rest := rfl

theorem afterByteWrite_of_ne_nil (a : Nat) {bs : List Byte} (rest : List HostStmt) (h : bs ≠ []) :
    afterByteWrite a bs rest = .mw (a + 1) bs :: rest :=
  if_neg (mt List.isEmpty_iff.1 h)

/-- The step of an `MW` is the store of its first byte by a host that has moved on. -/
theorem step_mw {s : State} {a : Nat} {b : Byte} {bs : List Byte} {rest : List HostStmt} (hturn : s.engineTurn = none)
    (hr : s.host.rest = .mw a (b :: bs) :: rest) :
    step s = hostStore (s.advance (afterByteWrite a bs rest)) a b := by
  rw [step_of_stmt hturn hr]
  cases bs <;> rfl

/-- Which bytes of memory are ordinary, region by region. -/
theorem hostAccessStop_none_iff_regions (s : State) (a : Nat) :
    hostAccessStop s a = none ↔
      a < 4294967296 ∧ (∀ b, s.params.windowInMemory = some b → ¬ (b ≤ a ∧ a < b + 32)) ∧
      (∀ r, r ∈ s.params.notAdmitted → ¬ (r.base ≤ a ∧ a < r.base + r.size)) ∧
      (∀ r, r ∈ s.params.sideEffects → ¬ (r.base ≤ a ∧ a < r.base + r.size)) := by
  simp only [hostAccessStop_none_iff, ← Bool.not_eq_true, hasAny_windowRegions_iff,
    hasAny_iff s.params.notAdmitted, hasAny_iff s.params.sideEffects, not_exists, not_and]

/-- Settles O51: the step is the store of one byte (`step_mw`), made or refused as the job's ranges say. -/
theorem hostMemoryWrite : Obligations.HostMemoryWrite := by
  refine ⟨?_, ?_, ?_, hostAccessStop_none_iff_regions⟩
  · intro s a b bs rest hturn hr hstop hout
    have hstep : step s = .next ((s.advance (afterByteWrite a bs rest)).store a b) :=
      (step_mw hturn hr).trans (hostStore_ordinary b ((s.inJob_eq_false_iff a).2 hout) hstop)
    refine ⟨_, hstep, ?_, ?_, rfl, rfl, rfl, rfl, rfl, rfl, rfl, rfl, rfl, rfl, rfl, ?_, ?_⟩
    · exact Memory.read_write_same s.mem a b
    · exact fun c hc => Memory.read_write_other s.mem a c b hc
    · rintro rfl
      exact afterByteWrite_nil a rest
    · exact afterByteWrite_of_ne_nil a rest
  · intro s a b bs rest j hturn hr hj hin
    have hjob : s.inJob a = true := by simpa [State.inJob, hj] using hin
    exact (step_mw hturn hr).trans (hostStore_inJob b hjob)
  · exact fun s a rest hturn hr => step_of_stmt hturn hr

/-! ### Reads -/

/-- A read of ordinary memory goes on with the byte memory holds. -/
theorem hostLoad_ordinary {s : State} {a : Nat} (k : Byte → State) (h : hostAccessStop s a = none) :
    hostLoad s a k = .next (k (s.mem.read a)) := by
  simp only [hostLoad, h]

/-- The step of an `MR` takes the byte memory holds, into the variable if it is the last. -/
theorem step_mr {s : State} {a n x : Nat} {got : List Byte} {rest : List HostStmt} (hturn : s.engineTurn = none)
    (hr : s.host.rest = .mr a (n + 1) x got :: rest) (hstop : hostAccessStop s a = none) :
    step s = .next
      (if n = 0 then (s.advance rest).setVar x (.bytes (got ++ [s.mem.read a]))
       else s.advance (.mr (a + 1) n x (got ++ [s.mem.read a]) :: rest)) := by
  rw [step_of_stmt hturn hr, runStmt]
  exact hostLoad_ordinary (s := s.advance rest) _ hstop

/-- Settles O52: `step_mr` for each number of bytes; a written offset holds its output byte by the job's invariant. -/
theorem hostMemoryRead : Obligations.HostMemoryRead := by
  refine ⟨?_, ?_, ?_, ?_⟩
  · exact fun s a x got rest hturn hr hstop => step_mr hturn hr hstop
  · exact fun s a n x got rest hturn hr hstop => step_mr hturn hr hstop
  · exact fun s a x got rest hturn hr => step_of_stmt hturn hr
  · intro s j i x rest h hj hi hturn hr hstop
    rw [← (h.job j hj).bytes i hi]
    exact step_mr hturn hr hstop

end Sys2Proof.Machine
end

section
/-! PROOFS. The engine's step, whichever offset is drawn: it writes the offset or gets stuck (spec/20_memory.md R60 to R63,
R150). -/

namespace Sys2Proof.Machine

/-! ### The offset drawn -/

/-- While an offset is left, one is drawn. -/
theorem Job.exists_nextOffset {j : Job} (pick : Nat) (h : j.remaining ≠ []) : ∃ i, j.nextOffset pick = some i :=
  Option.ne_none_iff_exists'.1 (mt (Job.nextOffset_eq_none j pick).1 h)

/-- Each offset left is drawn by its position among them. -/
theorem Job.exists_pick {j : Job} {i : Nat} (h : i ∈ j.remaining) : ∃ pick, j.nextOffset pick = some i := by
  obtain ⟨pick, hlt, hget⟩ := List.mem_iff_getElem.1 h
  refine ⟨pick, ?_⟩
  rw [Job.nextOffset, Nat.mod_eq_of_lt hlt, List.getElem?_eq_getElem hlt, hget]

/-- The write of an offset is the last exactly when no other is left. -/
theorem remaining_insert_eq_nil_iff (j : Job) (i : Nat) :
    { j with written := insertOffset i j.written : Job }.remaining = [] ↔
      ∀ k, k < j.len → k ∉ j.written → k = i := by
  simp only [List.eq_nil_iff_forall_not_mem, Job.mem_remaining, mem_insertOffset]
  exact forall_congr' fun k => by tauto

/-! ### The step -/

theorem step_of_admitted {s : State} {j : Job} {i : Nat} (hturn : s.engineTurn = some j)
    (hdraw : j.nextOffset s.sched.pick = some i) (hadmits : s.admits j i = true) : step s = .next (s.writeOut j i) := by
  rw [step_of_engineTurn hturn, engineStep_of_nextOffset hdraw, if_pos hadmits]

theorem step_of_unadmitted {s : State} {j : Job} {i : Nat} (hturn : s.engineTurn = some j)
    (hdraw : j.nextOffset s.sched.pick = some i) (hrefused : s.admits j i = false) :
    step s = .next { s with job := some { j with stuck := true }, sched := s.sched.redraw } := by
  rw [step_of_engineTurn hturn, engineStep_of_nextOffset hdraw, hrefused, if_neg Bool.false_ne_true]

/-! ### The requests -/

theorem State.requests_of_no_probe {s : State} (j : Job) (i : Nat) (h : s.sched.probe = 0) :
    s.requests j i = (j.dst + i) :: (s.frame j).siteReads (siteOf j.fmt j.w j.h i) := by
  simp [State.requests, State.extraRead, h]

/-- The free value that names a source byte has it read (R63). -/
theorem State.mem_requests_of_probe {s : State} {j : Job} {a : Nat} (i : Nat) (ha : j.inSource a = true)
    (h : s.sched.probe = a - j.src + 1) : a ∈ s.requests j i := by
  obtain ⟨hle, hlt⟩ := (inRange_iff _ _ _).1 ha
  have hextra : s.extraRead j = [a] := by
    simp only [State.extraRead, h]
    rw [Nat.mod_eq_of_lt (by omega), Nat.add_sub_of_le hle]
  exact List.mem_cons_of_mem _ (List.mem_append_left _ (hextra ▸ List.mem_singleton_self a))

/-- A write is not admitted exactly when an address it asks for lies in a region that is not (R60). -/
theorem State.admits_eq_false_iff (s : State) (j : Job) (i : Nat) :
    s.admits j i = false ↔
      ∃ a r, a ∈ s.requests j i ∧ r ∈ s.params.notAdmitted ∧ r.base ≤ a ∧ a < r.base + r.size := by
  simp [State.admits, hasAny_iff]

/-- Settles O45: the step is `writeOut` of the drawn offset, whose effect on each field is its lemma; the requests of the
invariant's states are `JobInv.requests_subset`. -/
theorem engineStepWritesOneOutputByte : Obligations.EngineStepWritesOneOutputByte := by
  refine ⟨?_, ?_, ?_, ?_, ?_, ?_⟩
  · intro s j i hturn hdraw hadmits
    obtain ⟨hlt, hnew⟩ := (Job.mem_remaining j i).1 (Job.nextOffset_mem hdraw)
    refine ⟨hlt, hnew, s.writeOut j i, step_of_admitted hturn hdraw hadmits, ?_, ?_, s.writeOut_width j i,
      s.writeOut_height j i, s.writeOut_srcAddr j i, s.writeOut_dstAddr j i, s.writeOut_outLen j i,
      s.writeOut_params j i, s.writeOut_host j i, ?_, ?_⟩
    · rw [State.writeOut_mem, Memory.read_write_same]
    · intro a ha
      rw [State.writeOut_mem, Memory.read_write_other _ _ _ _ ha]
    · exact fun honly => s.writeOut_last j i ((remaining_insert_eq_nil_iff j i).2 honly)
    · rintro ⟨k, hk, hkw, hki⟩
      obtain ⟨hjob, hstatus⟩ := s.writeOut_more j i fun hlast => hki ((remaining_insert_eq_nil_iff j i).1 hlast k hk hkw)
      exact ⟨hstatus, _, hjob, fun c => mem_insertOffset i c j.written, rfl⟩
  · rintro j pick ⟨k, hk⟩
    exact Job.exists_nextOffset pick (List.ne_nil_of_mem ((Job.mem_remaining j k).2 hk))
  · exact fun j i hi hnew => Job.exists_pick ((Job.mem_remaining j i).2 ⟨hi, hnew⟩)
  · exact fun s j i a h hj hi ha => (h.job j hj).requests_subset hi ha
  · exact fun s j i h => State.requests_of_no_probe j i h
  · exact fun s j i a ha h => State.mem_requests_of_probe i ha h

/-! ### A stuck job -/

/-- With a stuck job it is never the engine's turn. -/
theorem engineTurn_of_stuck {s : State} {j : Job} (hj : s.job = some j) (hstuck : j.stuck = true) :
    s.engineTurn = none := by
  simp [State.engineTurn, hj, hstuck]

/-- Everything a step can do with an active job: the engine's step, a reset of the block, or a step that leaves the job, the
block and the job's ranges as they were. -/
theorem step_cases_of_job {s t : State} {j : Job} (hj : s.job = some j) (h : step s = .next t) :
    (s.engineTurn = some j ∧ engineStep j s = .next t) ∨
    (∃ rest, s.host.rest = .reset :: rest ∧ t = (s.advance rest).blockReset) ∨
    (t.job = some j ∧ BlockKept s t ∧ ∀ a, j.inSource a = true ∨ j.inDest a = true → t.mem.read a = s.mem.read a) := by
  obtain ⟨k, hturn, hengine⟩ | ⟨-, -, rfl⟩ | ⟨-, hreset⟩ | ⟨-, st, rest, -, -, heffect⟩ := step_cases h
  · obtain rfl : k = j := Option.some.inj ((engineTurn_some hturn).1.symm.trans hj)
    exact .inl ⟨hturn, hengine⟩
  · exact .inr (.inr ⟨hj, .refl _, fun _ _ => rfl⟩)
  · exact .inr (.inl hreset)
  · have hadv : (s.advance rest).job = some j := hj
    obtain ⟨hjob, -, -, -, -, -, -, -, hranges⟩ := heffect.of_job hadv
    exact .inr (.inr ⟨hjob.trans hadv, { heffect.blockKept hadv with }, hranges⟩)

/-- Settles O50: a stuck engine has no turn, and what is left of `step_cases_of_job` without a reset keeps the job. -/
theorem unadmittedRequestSticksTheEngine : Obligations.UnadmittedRequestSticksTheEngine := by
  refine ⟨fun s j i => step_of_unadmitted, ?_, fun s j i => ⟨s.admits_eq_false_iff j i, List.mem_cons_self⟩⟩
  intro s t j hj hstuck h hnoReset
  obtain ⟨hturn, -⟩ | ⟨rest, hreset, -⟩ | ⟨hjob, hkept, hranges⟩ := step_cases_of_job hj h
  · cases hturn.symm.trans (engineTurn_of_stuck hj hstuck)
  · exact absurd hreset (hnoReset rest)
  · exact ⟨hjob, hkept.status, hkept.outLen, hkept.width, hkept.height, hkept.srcAddr, hkept.dstAddr, hranges⟩

end Sys2Proof.Machine
end

section
/-! PROOFS. A job from its steps to its end: what a step leaves in memory, what the last write leaves in the destination,
and that an admitted job runs to its end in whatever order it writes (spec/20_memory.md R61 to R66, spec/10_state.md R24,
R35, spec/70_reset_and_hazards.md R240). -/

namespace Sys2Proof.Machine

/-! ### The memory of a job along a step -/

theorem Job.inDest_dst_add (j : Job) {i : Nat} (hi : i < j.len) : j.inDest (j.dst + i) = true :=
  (inRange_iff _ _ _).2 ⟨Nat.le_add_right _ _, Nat.add_lt_add_left hi _⟩

/-- The engine's write leaves the job's source as it was. -/
theorem JobInv.writeOut_source {s : State} {j : Job} (h : JobInv s j) {i : Nat} (hi : i < j.len) :
    SameSource j (s.writeOut j i).mem s.mem := by
  intro a ha
  rw [State.writeOut_mem, Memory.read_write_other _ _ _ _ (h.ne_dst_add ha hi)]

/-- After the engine's write of offset i, offset k holds its output byte if it is i, and else what it held. -/
theorem State.writeOut_read_dst (s : State) (j : Job) (i k : Nat) :
    (s.writeOut j i).mem.read (j.dst + k) = if k = i then (s.frame j).out j.fmt k else s.mem.read (j.dst + k) := by
  rw [State.writeOut_mem, Memory.read_write]
  by_cases hk : k = i
  · rw [hk, if_pos rfl, if_pos rfl]
  · rw [if_neg hk, if_neg (mt Nat.add_left_cancel hk)]

/-- Settles O48, by the cases of a step with an active job: only the engine's write reaches the job's ranges. -/
theorem jobMemoryInEveryStep : Obligations.JobMemoryInEveryStep := by
  intro s t j h hj hs
  have unchanged (hranges : ∀ a, j.inSource a = true ∨ j.inDest a = true → t.mem.read a = s.mem.read a) :
      (∀ a, j.inSource a = true → t.mem.read a = s.mem.read a) ∧
      (∀ i, i < j.len → t.mem.read (j.dst + i) = s.mem.read (j.dst + i) ∨
        t.mem.read (j.dst + i) = (s.frame j).out j.fmt i) :=
    ⟨fun a ha => hranges a (.inl ha), fun i hi => .inl (hranges _ (.inr (j.inDest_dst_add hi)))⟩
  obtain ⟨-, hengine⟩ | ⟨rest, -, rfl⟩ | ⟨-, -, hranges⟩ := step_cases_of_job hj hs
  · obtain ⟨-, he⟩ | ⟨i, hi, -, he⟩ | ⟨i, -, -, he⟩ := engineStep_cases j s <;> cases he.symm.trans hengine
    · exact unchanged fun _ _ => rfl
    · refine ⟨(h.job j hj).writeOut_source ((Job.mem_remaining j i).1 hi).1, fun k _ => ?_⟩
      rw [s.writeOut_read_dst j i k]
      split
      · exact .inr rfl
      · exact .inl rfl
    · exact unchanged fun _ _ => rfl
  · exact unchanged fun _ _ => rfl
  · exact unchanged hranges

/-- The last write leaves every destination byte the output byte: the written offsets hold theirs already. -/
theorem JobInv.writeOut_last_output {s : State} {j : Job} (h : JobInv s j) {i : Nat}
    (hlast : { j with written := insertOffset i j.written : Job }.remaining = []) {k : Nat} (hk : k < j.len) :
    (s.writeOut j i).mem.read (j.dst + k) = (s.frame j).out j.fmt k := by
  rw [s.writeOut_read_dst j i k]
  split
  · rfl
  · rename_i hne
    exact h.bytes k (by_contra fun hnew => hne ((remaining_insert_eq_nil_iff j i).1 hlast k hk hnew))

/-- While a job is active a step after which DONE is 1 is the engine's last write: every other leaves DONE 0, a reset of the
block too. -/
theorem Inv.last_write_of_done {s t : State} {j : Job} (h : Inv s) (hj : s.job = some j) (hs : step s = .next t)
    (hdone : t.status.done = true) :
    ∃ i ∈ j.remaining, { j with written := insertOffset i j.written : Job }.remaining = [] ∧ t = s.writeOut j i := by
  have hjob := h.job j hj
  have running (hstatus : t.status = s.status) : False := by
    rw [hstatus, hjob.status] at hdone
    cases hdone
  obtain ⟨-, hengine⟩ | ⟨rest, -, rfl⟩ | ⟨-, hkept, -⟩ := step_cases_of_job hj hs
  · obtain ⟨hnoneLeft, -⟩ | ⟨i, hi, -, he⟩ | ⟨i, -, -, he⟩ := engineStep_cases j s
    · exact absurd hnoneLeft hjob.unfinished
    · cases he.symm.trans hengine
      exact ⟨i, hi, by_contra fun hmore => running (s.writeOut_more j i hmore).2, rfl⟩
    · cases he.symm.trans hengine
      exact (running rfl).elim
  · cases hdone
  · exact (running hkept.status).elim

/-- Settles O47: the step is the last write, which completes the destination and leaves the source. -/
theorem finishedJobHasWrittenItsOutput : Obligations.FinishedJobHasWrittenItsOutput := by
  intro s t j h hj hs hdone
  have hjob := h.job j hj
  obtain ⟨i, hi, hlast, rfl⟩ := h.last_write_of_done hj hs hdone
  refine ⟨(s.writeOut_last j i hlast).1, fun k hk => ?_⟩
  have hout := hjob.writeOut_last_output hlast hk
  have hsource := hjob.writeOut_source ((Job.mem_remaining j i).1 hi).1
  exact ⟨hout.trans (hjob.out_congr (s.writeOut_params j i) hsource hk).symm, hout⟩

/-! ### A whole job -/

/-- The state t is s with the job j completed: the destination holds the output, and all but STATUS, the destination and
the schedule is as it was. -/
structure Completed (s : State) (j : Job) (t : State) : Prop where
  job     : t.job = none
  status  : t.status = Status.finished
  output  : ∀ i, i < j.len → t.mem.read (j.dst + i) = (s.frame j).out j.fmt i
  others  : ∀ a, j.inDest a = false → t.mem.read a = s.mem.read a
  width   : t.width = s.width
  height  : t.height = s.height
  srcAddr : t.srcAddr = s.srcAddr
  dstAddr : t.dstAddr = s.dstAddr
  outLen  : t.outLen = s.outLen
  params  : t.params = s.params
  host    : t.host = s.host

/-- The engine's write leaves every address outside the destination. -/
theorem State.writeOut_read_outside (s : State) {j : Job} {i a : Nat} (hi : i < j.len) (ha : j.inDest a = false) :
    (s.writeOut j i).mem.read a = s.mem.read a := by
  rw [State.writeOut_mem]
  refine Memory.read_write_other _ _ _ _ ?_
  rintro rfl
  exact absurd (ha.symm.trans (j.inDest_dst_add hi)) Bool.false_ne_true

/-- The last write completes the job. -/
theorem JobInv.completed_of_last {s : State} {j : Job} (h : JobInv s j) {i : Nat} (hi : i ∈ j.remaining)
    (hlast : { j with written := insertOffset i j.written : Job }.remaining = []) : Completed s j (s.writeOut j i) := by
  obtain ⟨hnone, hstatus⟩ := s.writeOut_last j i hlast
  constructor
  case job => exact hnone
  case status => exact hstatus
  case output => exact fun k hk => h.writeOut_last_output hlast hk
  case others => exact fun a ha => s.writeOut_read_outside ((Job.mem_remaining j i).1 hi).1 ha
  all_goals simp

/-- A job completed after one of its writes is completed: the write leaves the frame and all outside the destination. -/
theorem JobInv.completed_of_writeOut {s t : State} {j : Job} (h : JobInv s j) {i : Nat} (hi : i ∈ j.remaining)
    (ht : Completed (s.writeOut j i) { j with written := insertOffset i j.written } t) : Completed s j t := by
  have hlt := ((Job.mem_remaining j i).1 hi).1
  exact
    { job := ht.job
      status := ht.status
      output := fun k hk =>
        (ht.output k hk).trans (h.out_congr (s.writeOut_params j i) (h.writeOut_source hlt) hk)
      others := fun a ha => (ht.others a ha).trans (s.writeOut_read_outside hlt ha)
      width := ht.width.trans (s.writeOut_width j i)
      height := ht.height.trans (s.writeOut_height j i)
      srcAddr := ht.srcAddr.trans (s.writeOut_srcAddr j i)
      dstAddr := ht.dstAddr.trans (s.writeOut_dstAddr j i)
      outLen := ht.outLen.trans (s.writeOut_outLen j i)
      params := ht.params.trans (s.writeOut_params j i)
      host := ht.host.trans (s.writeOut_host j i) }

/-- With the host at rest an admitted job is completed after as many steps as offsets are left, by induction on their
number: each step writes one, and the last ends the job. -/
theorem run_completes {n : Nat} {s : State} {j : Job} (h : Inv s) (hj : s.job = some j) (hstuck : j.stuck = false)
    (hrest : s.host.rest = []) (hall : AllAdmitted s j) (hn : j.remaining.length = n) :
    ∃ t, core.run n s = .next t ∧ Completed s j t := by
  induction n generalizing s j with
  | zero => exact absurd (List.length_eq_zero_iff.1 hn) (h.job j hj).unfinished
  | succ n ih =>
    have hjob := h.job j hj
    obtain ⟨i, hdraw⟩ := Job.exists_nextOffset s.sched.pick hjob.unfinished
    have hi := Job.nextOffset_mem hdraw
    have hstep : step s = .next (s.writeOut j i) :=
      step_of_admitted (engineTurn_of_atRest hj hstuck hrest) hdraw (hjob.admits hall ((Job.mem_remaining j i).1 hi).1)
    have hrun : core.run (n + 1) s = core.run n (s.writeOut j i) := run_of_next n hstep
    have hleft := remaining_length_insert j i hi
    rw [hrun]
    by_cases hlast : { j with written := insertOffset i j.written : Job }.remaining = []
    · obtain rfl : n = 0 := by rw [hlast, List.length_nil] at hleft; omega
      exact ⟨_, rfl, hjob.completed_of_last hi hlast⟩
    · have hall' : AllAdmitted (s.writeOut j i) { j with written := insertOffset i j.written } := by
        intro a ha
        rw [State.writeOut_params]
        exact hall a ha
      obtain ⟨t, ht, hcompleted⟩ := ih (h.writeOut hj hi) (s.writeOut_more j i hlast).1 hstuck
        ((congrArg HostSide.rest (s.writeOut_host j i)).trans hrest) hall' (by omega)
      exact ⟨t, ht, hjob.completed_of_writeOut hi hcompleted⟩

/-- Settles O58: `run_completes`, field by field. -/
theorem jobRunsToCompletion : Obligations.JobRunsToCompletion := by
  intro s j h hj hstuck hrest hall
  obtain ⟨t, hrun, ht⟩ := run_completes h hj hstuck hrest hall rfl
  exact ⟨t, hrun, ht.job, ht.status, ht.output, ht.others, ht.width, ht.height, ht.srcAddr, ht.dstAddr, ht.outLen,
    ht.params, ht.host⟩

/-! ### The order of the writes -/

/-- The invariant does not speak of the schedule. -/
theorem Inv.setSched {s : State} (h : Inv s) (d : Sched) : Inv { s with sched := d } :=
  ⟨h.mem, h.errcode, h.oneOf, fun _ hj => { h.job _ hj with }⟩

/-- Memories that hold a completed job's output and agree outside the destination read alike everywhere. -/
theorem Completed.read_eq {s t t' : State} {j : Job} (ht : Completed s j t) (ht' : Completed s j t') (a : Nat) :
    t'.mem.read a = t.mem.read a := by
  cases hdest : j.inDest a with
  | false => rw [ht'.others a hdest, ht.others a hdest]
  | true =>
    obtain ⟨hle, hlt⟩ := (inRange_iff _ _ _).1 hdest
    obtain ⟨i, rfl⟩ := Nat.exists_eq_add_of_le hle
    rw [ht'.output i (by omega), ht.output i (by omega)]

/-- A job is completed in one way, but for the schedule: the canonical form of memory is one. -/
theorem Completed.unique {s t t' : State} {j : Job} (ht : Completed s j t) (ht' : Completed s j t')
    (hwf : Memory.wf t.mem) (hwf' : Memory.wf t'.mem) : { t' with sched := t.sched } = t := by
  have hmem : t'.mem = t.mem := Memory.ext_of_read hwf' hwf (ht.read_eq ht')
  obtain ⟨_, _, _, _, _, _, _, _, _, _, _⟩ := t
  simp only [State.mk.injEq]
  exact ⟨ht'.params.trans ht.params.symm, ht'.status.trans ht.status.symm, ht'.width.trans ht.width.symm,
    ht'.height.trans ht.height.symm, ht'.srcAddr.trans ht.srcAddr.symm, ht'.dstAddr.trans ht.dstAddr.symm,
    ht'.outLen.trans ht.outLen.symm, ht'.job.trans ht.job.symm, hmem, ht'.host.trans ht.host.symm, trivial⟩

/-- Settles O60: both runs complete the job of one frame, and a completed job's state is unique. -/
theorem orderOfWritesMakesNoDifference : Obligations.OrderOfWritesMakesNoDifference := by
  intro s d j t t' h hj hstuck hrest hall hrun hrun'
  have h' := h.setSched d
  obtain ⟨u, hu, hcompleted⟩ := run_completes h hj hstuck hrest hall rfl
  obtain ⟨u', hu', hcompleted'⟩ := run_completes h' hj hstuck hrest hall rfl
  cases hu.symm.trans hrun
  cases hu'.symm.trans hrun'
  have same : Completed s j t' := { hcompleted' with }
  exact hcompleted.unique same (run_keeps stepKeepsInvariant _ h hrun).mem (run_keeps stepKeepsInvariant _ h' hrun').mem

end Sys2Proof.Machine
end

section
/-! PROOFS. Command words as bytes (spec/30_encoding.md R80 to R86). -/

namespace Sys2Proof

/-- A command word's four bytes decode as the word does, and what follows them is left. -/
theorem decode_four_ok_iff (b0 b1 b2 b3 : Byte) (tail : List Byte) (i : Instr) (rest : List Byte) :
    decode (b0 :: b1 :: b2 :: b3 :: tail) = .ok (i, rest) ↔
      decodeWord (wordOfLanes b0 b1 b2 b3) = .ok i ∧ tail = rest := by
  simp only [decode]
  cases decodeWord (wordOfLanes b0 b1 b2 b3) with
  | ok k => simp
  | error e => simp

theorem decode_encode (i : Instr) (rest : List Byte) : decode (encode i ++ rest) = .ok (i, rest) := by
  refine (decode_four_ok_iff _ _ _ _ rest i rest).2 ⟨?_, rfl⟩
  rw [wordOfLanes_laneOf, decodeWord_encodeWord]

/-- Bytes that decode to a command begin with its encoding: four bytes are the bytes of the word they make. -/
theorem eq_encode_append_of_decode {bs : List Byte} {i : Instr} {rest : List Byte} (h : decode bs = .ok (i, rest)) :
    bs = encode i ++ rest := by
  match bs, h with
  | b0 :: b1 :: b2 :: b3 :: tail, h =>
    obtain ⟨hword, rfl⟩ := (decode_four_ok_iff b0 b1 b2 b3 tail i rest).1 h
    rw [encode, ← encodeWord_of_decodeWord hword, bytesOfWord_wordOfLanes]
    rfl

/-- Settles O10: decoding undoes encoding, and only an encoding decodes. -/
theorem decodeAgreesWithEncode : Obligations.DecodeAgreesWithEncode :=
  fun _ i rest => ⟨eq_encode_append_of_decode, fun h => h ▸ decode_encode i rest⟩

/-- Settles O9: a word that does not decode to a command is rejected, and then with its own value. -/
theorem decodeNamesExactlyTheTable : Obligations.DecodeNamesExactlyTheTable := by
  intro c
  refine ⟨decodeWord_ok_iff c, by simp [decodeWord_error_iff], ?_⟩
  cases h : decodeWord c with
  | ok i => exact .inl ⟨i, rfl⟩
  | error e =>
    obtain ⟨-, rfl⟩ := (decodeWord_error_iff c e).1 h
    exact .inr rfl

/-- Settles O11: the bytes of each row are the encoding of its command; the two other words are computed. -/
theorem tableWordsDecode : Obligations.TableWordsDecode :=
  ⟨decode_encode .encodeRgb24 [], decode_encode .encodeXrgb32 [], decode_encode .encodeYuv444 [],
    decode_encode .encodeI420 [], decode_encode .encodeNv12 [], decode_encode .encodeYuyv [],
    decode_encode .encodeUyvy [], decode_encode .encodeP010 [], rfl, rfl⟩

end Sys2Proof
end

section
/-! PROOFS. Host programs (spec/30_encoding.md R87, R88): what a line expands to, where `IF` goes on, and the three
steps of a `WAIT`. -/

namespace Sys2Proof.Machine

/-! ### Immediates -/

theorem immWf_eq_false {n : Nat} (h : 4294967295 < n) : immWf n = false := decide_eq_false (by omega)

theorem imm32_of_lt {n : Nat} (h : n < 4294967296) : imm32 n = some (BitVec.ofNat 32 n) := if_pos (decide_eq_true h)

theorem imm32_of_gt {n : Nat} (h : 4294967295 < n) : imm32 n = none := by simp [imm32, immWf_eq_false h]

theorem expandStmt_wr_of_gt (l : Nat) (r : Reg) {n : Nat} (h : 4294967295 < n) : expandStmt l (.wr r n) = none := by
  simp [expandStmt, imm32_of_gt h]

theorem expandStmt_setup_of_lt (l : Nat) {w h src dst : Nat} (hw : w < 4294967296) (hh : h < 4294967296)
    (hsrc : src < 4294967296) (hdst : dst < 4294967296) :
    expandStmt l (.setup w h src dst) =
      some [.wr .width (BitVec.ofNat 32 w), .wr .height (BitVec.ofNat 32 h),
        .wr .srcAddr (BitVec.ofNat 32 src), .wr .dstAddr (BitVec.ofNat 32 dst)] := by
  simp only [expandStmt, imm32_of_lt hw, imm32_of_lt hh, imm32_of_lt hsrc, imm32_of_lt hdst]

/-- One immediate of a `SETUP` that does not fit is enough to refuse it. -/
theorem expandStmt_setup_of_gt (l : Nat) {w h src dst : Nat}
    (hbig : 4294967295 < w ∨ 4294967295 < h ∨ 4294967295 < src ∨ 4294967295 < dst) :
    expandStmt l (.setup w h src dst) = none := by
  rcases hbig with hbig | hbig | hbig | hbig <;> simp [expandStmt, imm32_of_gt hbig]

theorem expandStmt_memory_of_gt (l n x : Nat) (bs : List Byte) {a : Nat} (h : 4294967295 < a) :
    expandStmt l (.mw a bs) = none ∧ expandStmt l (.mr a n x) = none := by
  simp [expandStmt, immWf_eq_false h]

/-! ### Branches -/

theorem State.varBit_advance (s : State) (rest : List HostStmt) (x bit : Nat) :
    (s.advance rest).varBit x bit = s.varBit x bit := rfl

/-- The step of an `IF`: behind the label if the bit has the value, past the `IF` if not. -/
theorem step_ifGoto {s : State} {x bit l : Nat} {v : Bool} {rest : List HostStmt} (hturn : s.engineTurn = none)
    (hr : s.host.rest = .ifGoto x bit v l :: rest) :
    step s =
      if s.varBit x bit = v then
        (afterLabel l s.host.prog).elim (.refused .undefinedLabel) (fun follow => .next (s.advance follow))
      else .next (s.advance rest) := by
  rw [step_of_stmt hturn hr, runStmt, State.varBit_advance, State.advance_host]
  cases afterLabel l s.host.prog <;> rfl

theorem step_ifGoto_taken {s : State} {x bit l : Nat} {v : Bool} {rest follow : List HostStmt}
    (hturn : s.engineTurn = none) (hr : s.host.rest = .ifGoto x bit v l :: rest) (hbit : s.varBit x bit = v)
    (hlabel : afterLabel l s.host.prog = some follow) : step s = .next (s.advance follow) := by
  rw [step_ifGoto hturn hr, if_pos hbit, hlabel, Option.elim_some]

theorem step_ifGoto_passed {s : State} {x bit l : Nat} {v : Bool} {rest : List HostStmt}
    (hturn : s.engineTurn = none) (hr : s.host.rest = .ifGoto x bit v l :: rest) (hbit : s.varBit x bit ≠ v) :
    step s = .next (s.advance rest) := by
  rw [step_ifGoto hturn hr, if_neg hbit]

theorem step_ifGoto_undefined {s : State} {x bit l : Nat} {v : Bool} {rest : List HostStmt}
    (hturn : s.engineTurn = none) (hr : s.host.rest = .ifGoto x bit v l :: rest) (hbit : s.varBit x bit = v)
    (hlabel : afterLabel l s.host.prog = none) : step s = .refused .undefinedLabel := by
  rw [step_ifGoto hturn hr, if_pos hbit, hlabel, Option.elim_none]

/-! ### Bits of a host variable -/

theorem State.varBit_of_some {s : State} {x : Nat} {v : HostVal} (bit : Nat) (h : assocGet s.host.vars x = some v) :
    s.varBit x bit = v.bit bit := by
  simp only [varBit, h]

theorem State.varBit_of_none {s : State} {x : Nat} (bit : Nat) (h : assocGet s.host.vars x = none) :
    s.varBit x bit = false := by
  simp only [varBit, h]

/-- A bit of a byte that is there is the byte's own bit. -/
theorem HostVal.bit_bytes_of_getElem? {bs : List Byte} {bit : Nat} {b : Byte} (h : bs[bit / 8]? = some b) :
    (HostVal.bytes bs).bit bit = b.getLsbD (bit % 8) := by
  simp [HostVal.bit, h]

/-- Past the last byte every bit is 0 (log entry 5). -/
theorem HostVal.bit_bytes_past_end {bs : List Byte} {bit : Nat} (h : 8 * bs.length ≤ bit) :
    (HostVal.bytes bs).bit bit = false := by
  have hend : bs[bit / 8]? = none := List.getElem?_eq_none (by omega)
  simp [HostVal.bit, hend]

/-! ### WAIT -/

/-- The next n steps are the host's, if it has as many statements: no job, a stuck one, or one whose engine waits. -/
def State.HostHasSteps (s : State) (n : Nat) : Prop := ∀ j, s.job = some j → j.stuck = true ∨ n ≤ s.sched.burst

theorem State.HostHasSteps.of_idle {s : State} {n : Nat} (h : s.job = none) : s.HostHasSteps n := by
  simp [HostHasSteps, h]

theorem State.HostHasSteps.of_job {s : State} {n : Nat} {j : Job} (hj : s.job = some j)
    (h : j.stuck = true ∨ n ≤ s.sched.burst) : s.HostHasSteps n := by
  simpa [HostHasSteps, hj] using h

theorem State.HostHasSteps.engineTurn {s : State} {n : Nat} (h : s.HostHasSteps (n + 1)) (hr : s.host.rest ≠ []) :
    s.engineTurn = none := by
  cases hj : s.job with
  | none => exact engineTurn_of_idle hj
  | some j => exact engineTurn_of_burst hj hr ((h j hj).imp_right (Nat.zero_lt_of_lt ·))

theorem State.HostHasSteps.advance {s : State} {n : Nat} (h : s.HostHasSteps (n + 1)) (rest : List HostStmt) :
    (s.advance rest).HostHasSteps n :=
  fun j hj => (h j hj).imp_right Nat.le_sub_one_of_lt

/-- The state in which a `WAIT` reached in s, with `rest` after it, tests BUSY: its label and its `RD` have run. -/
def State.atWaitTest (s : State) (x l : Nat) (rest : List HostStmt) : State :=
  ((s.advance (.rd .status x :: .ifGoto x 0 true l :: rest)).advance (.ifGoto x 0 true l :: rest)).setVar x
    (.word (readOffset s 0x04))

@[simp] theorem State.atWaitTest_status (s : State) (x l : Nat) (rest : List HostStmt) :
    (s.atWaitTest x l rest).status = s.status := by simp [atWaitTest]

@[simp] theorem State.atWaitTest_job (s : State) (x l : Nat) (rest : List HostStmt) :
    (s.atWaitTest x l rest).job = s.job := by simp [atWaitTest]

@[simp] theorem State.atWaitTest_mem (s : State) (x l : Nat) (rest : List HostStmt) :
    (s.atWaitTest x l rest).mem = s.mem := by simp [atWaitTest]

@[simp] theorem State.atWaitTest_outLen (s : State) (x l : Nat) (rest : List HostStmt) :
    (s.atWaitTest x l rest).outLen = s.outLen := by simp [atWaitTest]

/-- The variable then holds STATUS. -/
theorem State.atWaitTest_var (s : State) (x l : Nat) (rest : List HostStmt) :
    assocGet (s.atWaitTest x l rest).host.vars x = some (.word (readOffset s 0x04)) :=
  assocGet_put_same ..

theorem readStatus_busy (s : State) : (readOffset s 0x04).getLsbD 0 = s.busy := (statusWord_bits s.busy s.status).1

/-- The bit that a `WAIT` tests is BUSY. -/
theorem State.atWaitTest_varBit (s : State) (x l : Nat) (rest : List HostStmt) :
    (s.atWaitTest x l rest).varBit x 0 = s.busy :=
  (varBit_of_some 0 (s.atWaitTest_var x l rest)).trans (readStatus_busy s)

theorem State.HostHasSteps.atWaitTest_engineTurn {s : State} (h : s.HostHasSteps 3) (x l : Nat) (rest : List HostStmt) :
    (s.atWaitTest x l rest).engineTurn = none :=
  have hown : (s.atWaitTest x l rest).HostHasSteps 1 :=
    (h.advance (.rd .status x :: .ifGoto x 0 true l :: rest)).advance (.ifGoto x 0 true l :: rest)
  hown.engineTurn (List.cons_ne_nil _ _)

theorem run_one (s : State) : core.run 1 s = step s := by
  cases hs : step s with
  | next t => exact run_of_next (M := core) 0 hs
  | fault r => exact run_of_fault (M := core) 0 hs
  | refused r => exact run_of_refused (M := core) 0 hs

/-- The first two of a `WAIT`'s three steps lead to its test. -/
theorem run_wait {s : State} {x l : Nat} {rest : List HostStmt} (hhost : s.HostHasSteps 3)
    (hr : s.host.rest = .label l :: .rd .status x :: .ifGoto x 0 true l :: rest) :
    core.run 3 s = step (s.atWaitTest x l rest) := by
  have hlabel : step s = .next (s.advance (.rd .status x :: .ifGoto x 0 true l :: rest)) :=
    step_of_stmt (hhost.engineTurn (hr ▸ List.cons_ne_nil _ _)) hr
  have hread : step (s.advance (.rd .status x :: .ifGoto x 0 true l :: rest)) = .next (s.atWaitTest x l rest) :=
    step_rd ((hhost.advance _).engineTurn (List.cons_ne_nil _ _)) rfl
  exact (run_of_next (M := core) 2 hlabel).trans ((run_of_next (M := core) 1 hread).trans (run_one _))

/-- A `WAIT` reached while BUSY = 0 is left after one pass. -/
theorem run_wait_idle {s : State} {x l : Nat} {rest : List HostStmt} (hj : s.job = none)
    (hr : s.host.rest = .label l :: .rd .status x :: .ifGoto x 0 true l :: rest) :
    core.run 3 s = .next ((s.atWaitTest x l rest).advance rest) := by
  have hhost : s.HostHasSteps 3 := .of_idle hj
  have hbit : (s.atWaitTest x l rest).varBit x 0 ≠ true := by simp [State.atWaitTest_varBit, hj]
  rw [run_wait hhost hr]
  exact step_ifGoto_passed (hhost.atWaitTest_engineTurn x l rest) rfl hbit

/-- A `WAIT` reached while BUSY = 1, with the engine not moving in its three steps, jumps to its label. -/
theorem run_wait_busy {s : State} {j : Job} {x l : Nat} {rest follow : List HostStmt} (hj : s.job = some j)
    (hhost : s.HostHasSteps 3) (hr : s.host.rest = .label l :: .rd .status x :: .ifGoto x 0 true l :: rest)
    (hlabel : afterLabel l s.host.prog = some follow) :
    core.run 3 s = .next ((s.atWaitTest x l rest).advance follow) := by
  have hbit : (s.atWaitTest x l rest).varBit x 0 = true := by simp [State.atWaitTest_varBit, hj]
  rw [run_wait hhost hr]
  exact step_ifGoto_taken (hhost.atWaitTest_engineTurn x l rest) rfl hbit hlabel

/-- Settles O53: the expansions by computing them, `WAIT` in a program by `assemble_wait` and its steps by
`run_wait_idle` and `run_wait_busy`, `IF` by `step_ifGoto`. -/
theorem pseudoInstructions : Obligations.PseudoInstructions := by
  refine ⟨fun _ _ => rfl, fun _ => rfl, fun l w h src dst => expandStmt_setup_of_lt l, fun _ _ => rfl,
    fun l n r => expandStmt_wr_of_gt l r, fun l w h src dst => expandStmt_setup_of_gt l,
    fun l a n x bs => expandStmt_memory_of_gt l n x bs, ?_, ?_, ?_, ?_, ?_, ?_, ?_⟩
  · intro p p' x q hq
    obtain ⟨q1, q2, l, rfl, hq1, hl⟩ := assemble_wait hq
    refine ⟨q1, q2, l, rfl, hq1, not_mem_namesOf.1 hl, ?_⟩
    rw [List.append_assoc]
    exact afterLabel_append (not_mem_namesOf_append.1 hl).1
  · exact fun s x bit l v rest hturn hr => ⟨fun follow => step_ifGoto_taken hturn hr, step_ifGoto_passed hturn hr,
      step_ifGoto_undefined hturn hr⟩
  · exact fun s x bit w hx => ⟨fun _ => State.varBit_of_some bit hx,
      fun hbit => (State.varBit_of_some bit hx).trans (BitVec.getLsbD_of_ge w bit hbit)⟩
  · exact fun s x bit bs hx => ⟨fun b hb => (State.varBit_of_some bit hx).trans (HostVal.bit_bytes_of_getElem? hb),
      fun hend => (State.varBit_of_some bit hx).trans (HostVal.bit_bytes_past_end hend)⟩
  · exact fun s x bit => State.varBit_of_none bit
  · intro s x l rest hj hr
    refine ⟨_, run_wait_idle hj hr, rfl, s.atWaitTest_var x l rest, ?_, by simp, by simp [hj], by simp, by simp⟩
    exact (readStatus_busy s).trans ((State.busy_eq_false s).2 hj)
  · intro s j x l rest hj hengine hr hlabel
    refine ⟨_, run_wait_busy hj (.of_job hj hengine) hr hlabel, rfl, s.atWaitTest_var x l rest, ?_, by simp,
      by simp [hj], by simp, by simp⟩
    exact (readStatus_busy s).trans ((State.busy_eq_true s).2 ⟨j, hj⟩)

end Sys2Proof.Machine
end

section
/-! PROOFS. The Color Transform (spec/40_color_transform.md R100 to R114): the range of the accumulators, where the
full-range clip and the tie parameter have an effect, and the exact transform as one floor of a rational. -/

namespace Sys2Proof.Machine

theorem byte_toNat_le (x : Byte) : x.toNat ≤ 255 := Nat.le_of_lt_succ x.isLt

/-! ### The accumulators -/

theorem accY_eq (r g b : Byte) : accY r g b = 299000 * r.toNat + 587000 * g.toNat + 114000 * b.toNat := rfl

/-- The U accumulator with the signs of its coefficients written out, as R103 does. -/
theorem accU_eq (r g b : Byte) :
    accU r g b = -168736 * r.toNat - 331264 * g.toNat + 500000 * b.toNat + 128000000 := by
  have h : accU r g b = -168736 * r.toNat + -331264 * g.toNat + 500000 * b.toNat + 128000000 := rfl
  omega

/-- The V accumulator with the signs of its coefficients written out, as R103 does. -/
theorem accV_eq (r g b : Byte) :
    accV r g b = 500000 * r.toNat - 418688 * g.toNat - 81312 * b.toNat + 128000000 := by
  have h : accV r g b = 500000 * r.toNat + -418688 * g.toNat + -81312 * b.toNat + 128000000 := rfl
  omega

theorem accY_bounds (r g b : Byte) : 0 ≤ accY r g b ∧ accY r g b ≤ 255000000 := by
  have hr := byte_toNat_le r
  have hg := byte_toNat_le g
  have hb := byte_toNat_le b
  rw [accY_eq]
  omega

theorem accU_bounds (r g b : Byte) : 500000 ≤ accU r g b ∧ accU r g b ≤ 255500000 := by
  have hr := byte_toNat_le r
  have hg := byte_toNat_le g
  have hb := byte_toNat_le b
  rw [accU_eq]
  omega

theorem accV_bounds (r g b : Byte) : 500000 ≤ accV r g b ∧ accV r g b ≤ 255500000 := by
  have hr := byte_toNat_le r
  have hg := byte_toNat_le g
  have hb := byte_toNat_le b
  rw [accV_eq]
  omega

theorem acc_nonneg (ch : Channel) (r g b : Byte) : 0 ≤ acc ch r g b := by
  cases ch with
  | y => exact (accY_bounds r g b).1
  | u => exact le_trans (by decide) (accU_bounds r g b).1
  | v => exact le_trans (by decide) (accV_bounds r g b).1

/-- A product's extremes lie at the ends of the component's range. -/
theorem mul_byte_bounds (k : Int) (x : Byte) : min 0 (255 * k) ≤ k * x.toNat ∧ k * x.toNat ≤ max 0 (255 * k) := by
  have hx : (x.toNat : Int) ≤ 255 := by exact_mod_cast byte_toNat_le x
  have hx0 : (0 : Int) ≤ x.toNat := Int.natCast_nonneg _
  obtain hk | hk := le_total 0 k
  · have hlo : 0 ≤ k * x.toNat := mul_nonneg hk hx0
    have hhi : k * x.toNat ≤ k * 255 := mul_le_mul_of_nonneg_left hx hk
    omega
  · have hlo : k * 255 ≤ k * x.toNat := mul_le_mul_of_nonpos_left hx hk
    have hhi : k * x.toNat ≤ 0 := mul_nonpos_of_nonpos_of_nonneg hk hx0
    omega

/-- Leaving a product out of a sum keeps it within the same extremes. -/
theorem mul_mul_byte_bounds {e : Int} (he : e ∈ [0, 1]) (k : Int) (x : Byte) :
    min 0 (255 * k) ≤ e * (k * x.toNat) ∧ e * (k * x.toNat) ≤ max 0 (255 * k) := by
  have h := mul_byte_bounds k x
  obtain rfl | rfl : e = 0 ∨ e = 1 := by simpa using he
  · rw [zero_mul]
    omega
  · rwa [one_mul]

/-- Every partial sum is bounded by the sum of the products' extremes, the bias with them. -/
theorem partialSum_bounds {er eg eb ebias : Int} (her : er ∈ [0, 1]) (heg : eg ∈ [0, 1]) (heb : eb ∈ [0, 1])
    (hebias : ebias ∈ [0, 1]) (kr kg kb : Int) {bias : Int} (hbias : 0 ≤ bias) (r g b : Byte) :
    min 0 (255 * kr) + min 0 (255 * kg) + min 0 (255 * kb) ≤
      er * (kr * r.toNat) + eg * (kg * g.toNat) + eb * (kb * b.toNat) + ebias * bias ∧
    er * (kr * r.toNat) + eg * (kg * g.toNat) + eb * (kb * b.toNat) + ebias * bias ≤
      max 0 (255 * kr) + max 0 (255 * kg) + max 0 (255 * kb) + bias := by
  have hr := mul_mul_byte_bounds her kr r
  have hg := mul_mul_byte_bounds heg kg g
  have hb := mul_mul_byte_bounds heb kb b
  obtain rfl | rfl : ebias = 0 ∨ ebias = 1 := by simpa using hebias
  · rw [zero_mul]
    omega
  · rw [one_mul]
    omega

/-- Settles O25: the ranges by `accY_bounds` and its like, the products and the partial sums by the extremes of each
product. -/
theorem accumulatorsFitTheirRanges : Obligations.AccumulatorsFitTheirRanges := by
  intro r g b
  refine ⟨accY_eq r g b, accU_eq r g b, accV_eq r g b, accY_bounds r g b, accU_bounds r g b, accV_bounds r g b, ?_, ?_,
    by decide, by decide, by decide⟩
  · intro k x hk
    have hrange : ∀ k ∈ [299000, 587000, 114000, -168736, -331264, 500000, -418688, -81312],
        (-587000 : Int) ≤ k ∧ k ≤ 587000 := by decide
    have hmag := hrange k hk
    have hprod := mul_byte_bounds k x
    omega
  · intro er eg eb ebias her heg heb hebias kr kg kb bias hrow
    have hrange : ∀ row ∈ [((299000, 587000, 114000, 0) : Int × Int × Int × Int),
        (-168736, -331264, 500000, 128000000), (500000, -418688, -81312, 128000000)],
        0 ≤ row.2.2.2 ∧
        -127500000 ≤ min 0 (255 * row.1) + min 0 (255 * row.2.1) + min 0 (255 * row.2.2.1) ∧
        max 0 (255 * row.1) + max 0 (255 * row.2.1) + max 0 (255 * row.2.2.1) + row.2.2.2 ≤ 255500000 := by decide
    obtain ⟨hbias, hlo, hhi⟩ := hrange _ hrow
    have hsum := partialSum_bounds her heg heb hebias kr kg kb hbias r g b
    exact ⟨hlo.trans hsum.1, hsum.2.trans hhi⟩

/-! ### The full-range clip -/

/-- The upper bound is active for U only at full blue, with almost no red and green. -/
theorem lt_accU_iff (r g b : Byte) :
    255000000 < accU r g b ↔
      b.toNat = 255 ∧ (g.toNat = 0 ∧ r.toNat ≤ 2 ∨ g.toNat = 1 ∧ r.toNat = 0) := by
  have hb := byte_toNat_le b
  rw [accU_eq]
  omega

/-- The upper bound is active for V only at full red, with almost no green and blue. -/
theorem lt_accV_iff (r g b : Byte) :
    255000000 < accV r g b ↔
      r.toNat = 255 ∧ (g.toNat = 0 ∧ b.toNat ≤ 6 ∨ g.toNat = 1 ∧ b.toNat = 0) := by
  have hr := byte_toNat_le r
  rw [accV_eq]
  omega

/-- Settles O26, by `lt_accU_iff` and `lt_accV_iff`. -/
theorem fullRangeClipIsActiveExactlyAt : Obligations.FullRangeClipIsActiveExactlyAt := by
  intro r g b
  refine ⟨fun _ => rfl, fun ch => acc_nonneg ch r g b, (accY_bounds r g b).2, (lt_accU_iff r g b).trans ?_,
    (lt_accV_iff r g b).trans ?_⟩ <;>
  · simp only [List.mem_cons, List.not_mem_nil, or_false, Prod.mk.injEq, BitVec.toNat_eq, BitVec.toNat_ofNat]
    omega

/-! ### The tie parameter -/

theorem isTiePoint_iff (ch : Channel) (r g b : Byte) :
    isTiePoint ch r g b = true ↔ fullClip (acc ch r g b) * span ch % 255000000 = 0 := beq_iff_eq

/-- The parameter takes its one exactly at the tie points it lists. -/
theorem tie_eq_ite (ties : List TiePoint) (ch : Channel) (r g b : Byte) :
    tie ties ch r g b =
      if fullClip (acc ch r g b) * span ch % 255000000 = 0 ∧ { ch := ch, r := r, g := g, b := b } ∈ ties
      then 1 else 0 := by
  simp only [tie, Bool.and_eq_true, isTiePoint_iff, List.contains_iff_mem]

/-- Where the parameter takes nothing, the sample is that of the exact transform. -/
theorem ct_eq_ct_nil {ties : List TiePoint} {ch : Channel} {r g b : Byte} (h : tie ties ch r g b = 0) :
    ct ties ch r g b = ct [] ch r g b := by
  simp only [ct, ctValue, quantised, h, tie_nil]

theorem ct_of_not_tiePoint (ties : List TiePoint) {ch : Channel} {r g b : Byte}
    (h : fullClip (acc ch r g b) * span ch % 255000000 ≠ 0) : ct ties ch r g b = ct [] ch r g b :=
  ct_eq_ct_nil (by rw [tie_eq_ite, if_neg (fun ⟨htie, _⟩ => h htie)])

theorem ct_of_not_mem {ties : List TiePoint} {ch : Channel} {r g b : Byte}
    (h : { ch := ch, r := r, g := g, b := b } ∉ ties) : ct ties ch r g b = ct [] ch r g b :=
  ct_eq_ct_nil (by rw [tie_eq_ite, if_neg (fun ⟨_, hmem⟩ => h hmem)])

/-- Settles O31, by the cases of `tie_eq_ite`. -/
theorem tieDownOnlyAtTiePoints : Obligations.TieDownOnlyAtTiePoints := by
  refine fun ties ch r g b => ⟨ct_of_not_tiePoint ties, ct_of_not_mem, fun htie hmem => ?_⟩
  have hone : tie ties ch r g b = 1 := by rw [tie_eq_ite, if_pos ⟨htie, hmem⟩]
  rw [ct_toNat, ctValue, quantised, hone]

/-! ### The exact transform -/

/-- With `CT_TIE_DOWN` false a sample is the scaled value of R105. -/
theorem ct_nil_toNat (ch : Channel) (r g b : Byte) :
    ((ct [] ch r g b).toNat : Int) = fullClip (acc ch r g b) * span ch / 255000000 + 16 :=
  (ct_toNat [] ch r g b).trans (ctValue_nil ch r g b)

/-- Where an accumulator is within the full range, the clip leaves it. -/
theorem fullClip_of_le {s : Int} (h0 : 0 ≤ s) (h : s ≤ 255000000) : fullClip s = s := clamp_of_mem h0 h

/-- The full-range clip of an accumulator is 10^6 times the clamp of the value it stands for. -/
theorem clamp_fullRange_eq {s : Int} {t : ℚ} (ht : t * 1000000 = s) :
    min (max t 0) 255 = (fullClip s : ℚ) / 1000000 := by
  rw [eq_div_iff (by norm_num), min_mul_of_nonneg _ _ (by norm_num), max_mul_of_nonneg _ _ (by norm_num), ht]
  unfold fullClip clamp
  push_cast
  norm_num

/-- The truncating division of R105 is the floor of the source's rescaling. -/
theorem floor_rescaled (c k : Int) : ⌊(c : ℚ) / 1000000 * k / 255 + 16⌋ = c * k / 255000000 + 16 := by
  have hquot : (c : ℚ) / 1000000 * k / 255 = ((c * k : Int) : ℚ) / ((255000000 : ℕ) : ℚ) := by
    push_cast
    ring
  rw [hquot, Int.floor_add_ofNat, Rat.floor_intCast_div_natCast]
  rfl

/-- The exact transform of a channel whose accumulator stands for the value `t`. -/
theorem ct_nil_eq_floor {ch : Channel} {r g b : Byte} {t : ℚ} (ht : t * 1000000 = acc ch r g b) :
    ((ct [] ch r g b).toNat : ℤ) = min (max ⌊min (max t 0) 255 * span ch / 255 + 16⌋ 16) (limitTop ch) := by
  obtain ⟨hlo, hhi⟩ := ctValue_bounds [] ch r g b
  rw [clamp_fullRange_eq ht, floor_rescaled, ← ctValue_nil, ct_toNat]
  exact (clamp_of_mem hlo hhi).symm

/-- Settles O27, by `ct_nil_eq_floor`: each accumulator is 10^6 times the row of the matrix. -/
theorem transformIsTheExactMatrix : Obligations.TransformIsTheExactMatrix := by
  intro r g b R G B Y' U' V' full
  have hY : Y' * 1000000 = acc .y r g b := by
    simp only [acc, accY_eq, Y', R, G, B]
    push_cast
    ring
  have hU : U' * 1000000 = acc .u r g b := by
    simp only [acc, accU_eq, U', R, G, B]
    push_cast
    ring
  have hV : V' * 1000000 = acc .v r g b := by
    simp only [acc, accV_eq, V', R, G, B]
    push_cast
    ring
  exact ⟨ct_nil_eq_floor hY, ct_nil_eq_floor hU, ct_nil_eq_floor hV⟩

/-! ### Laws of the samples -/

theorem ct_mem_limitedRange (ties : List TiePoint) {ch : Channel} {top : Nat} (htop : limitTop ch = top)
    (r g b : Byte) :
    16 ≤ (ct ties ch r g b).toNat ∧ (ct ties ch r g b).toNat ≤ top := by
  have h := ct_bounds ties ch r g b
  omega

/-- Settles O28, by `ct_mem_limitedRange`. -/
theorem limitedRangeInvariant : Obligations.LimitedRangeInvariant := by
  refine ⟨fun ties r g b => ?_, by decide, by decide, by decide, by decide, by decide⟩
  exact ⟨ct_mem_limitedRange ties rfl r g b, ct_mem_limitedRange ties rfl r g b, ct_mem_limitedRange ties rfl r g b⟩

/-- A chroma sample whose accumulator is the bias is neutral: the bias is no tie point. -/
theorem ct_of_acc_eq_bias (ties : List TiePoint) {ch : Channel} {r g b : Byte} (hspan : span ch = 224)
    (hacc : acc ch r g b = 128000000) : ct ties ch r g b = 128#8 := by
  have hclip : fullClip (acc ch r g b) * span ch = 128000000 * 224 := by rw [hacc, hspan]; decide
  have hnil : ((ct [] ch r g b).toNat : Int) = 128 := by rw [ct_nil_toNat, hclip]; decide
  rw [ct_of_not_tiePoint ties (by rw [hclip]; decide)]
  exact BitVec.eq_of_toNat_eq (by exact_mod_cast hnil)

/-- Luma in the exact transform: its accumulator is never clipped. -/
theorem luma_toNat (r g b : Byte) :
    (ct [] .y r g b).toNat = 73 * (299 * r.toNat + 587 * g.toNat + 114 * b.toNat) / 85000 + 16 := by
  obtain ⟨h0, h⟩ := accY_bounds r g b
  have hval := ct_nil_toNat .y r g b
  have hspan : span .y = 219 := rfl
  rw [acc, fullClip_of_le h0 h, hspan, accY_eq] at hval
  omega

/-- Settles O29, by `ct_of_acc_eq_bias` and `luma_toNat`: the coefficients of each row sum to 0, those of luma to
1000000. -/
theorem greyIsNeutral : Obligations.GreyIsNeutral := by
  intro ties k
  have hU : accU k k k = 128000000 := by rw [accU_eq]; omega
  have hV : accV k k k = 128000000 := by rw [accV_eq]; omega
  have hY : accY k k k = 1000000 * k.toNat := by rw [accY_eq]; omega
  have hluma : (ct [] .y k k k).toNat = 219 * k.toNat / 255 + 16 := by rw [luma_toNat]; omega
  exact ⟨hU, hV, hY, ct_of_acc_eq_bias ties rfl hU, ct_of_acc_eq_bias ties rfl hV, hluma⟩

/-- Settles O30, by `luma_toNat`. -/
theorem lumaDependsOnOneSum : Obligations.LumaDependsOnOneSum := by
  refine ⟨luma_toNat, fun r g b r' g' b' hr hg hb => ?_⟩
  rw [luma_toNat, luma_toNat]
  gcongr

end Sys2Proof.Machine
end

section
/-! PROOFS. The Chroma Subsampler (spec/41_chroma_subsampler.md R131, R132): the truncated average of four samples, and the
bytes a 4:2:2 sample does not depend on. -/

namespace Sys2Proof.Machine

/-! ### The average of a block -/

/-- The average of four bytes fits a byte: nothing is lost but the remainder of the division. -/
theorem average4_toNat (a b c d : Byte) :
    (average4 a b c d).toNat = (a.toNat + b.toNat + c.toNat + d.toNat) / 4 := by
  have ha := byte_toNat_le a
  have hb := byte_toNat_le b
  have hc := byte_toNat_le c
  have hd := byte_toNat_le d
  rw [average4, BitVec.toNat_ofNat]
  exact Nat.mod_eq_of_lt (by omega)

theorem min_le_average4 (a b c d : Byte) :
    min (min a.toNat b.toNat) (min c.toNat d.toNat) ≤ (average4 a b c d).toNat := by
  rw [average4_toNat]
  omega

theorem average4_le_max (a b c d : Byte) :
    (average4 a b c d).toNat ≤ max (max a.toNat b.toNat) (max c.toNat d.toNat) := by
  rw [average4_toNat]
  omega

theorem limitTop_of_chroma {ch : Channel} (hch : ch = .u ∨ ch = .v) : limitTop ch = (240 : Nat) := by
  rcases hch with rfl | rfl <;> rfl

/-- A chroma sample of the full-resolution plane is in the limited range (R111). -/
theorem Frame.plane_mem_chromaRange (f : Frame) {ch : Channel} (hch : ch = .u ∨ ch = .v) (x y : Nat) :
    16 ≤ (f.plane ch x y).toNat ∧ (f.plane ch x y).toNat ≤ 240 :=
  ct_mem_limitedRange f.ties (limitTop_of_chroma hch) _ _ _

/-- Settles O32: the average is between the least and the greatest of the four samples, and each of these is in the
limited range. -/
theorem chroma420IsTruncatedAverage : Obligations.Chroma420IsTruncatedAverage := by
  intro f ch cx cy hch a b c d
  obtain ⟨halo, hahi⟩ : 16 ≤ a ∧ a ≤ 240 := f.plane_mem_chromaRange hch _ _
  obtain ⟨hblo, hbhi⟩ : 16 ≤ b ∧ b ≤ 240 := f.plane_mem_chromaRange hch _ _
  obtain ⟨hclo, hchi⟩ : 16 ≤ c ∧ c ≤ 240 := f.plane_mem_chromaRange hch _ _
  obtain ⟨hdlo, hdhi⟩ : 16 ≤ d ∧ d ≤ 240 := f.plane_mem_chromaRange hch _ _
  have hmin : min (min a b) (min c d) ≤ (f.chroma420 ch cx cy).toNat := min_le_average4 ..
  have hmax : (f.chroma420 ch cx cy).toNat ≤ max (max a b) (max c d) := average4_le_max ..
  have hlow : 16 ≤ min (min a b) (min c d) := le_min (le_min halo hblo) (le_min hclo hdlo)
  have hhigh : max (max a b) (max c d) ≤ 240 := max_le (max_le hahi hbhi) (max_le hchi hdhi)
  exact ⟨average4_toNat .., by omega, hmin, hmax, hlow.trans hmin, hmax.trans hhigh⟩

/-! ### Decimation -/

/-- A byte of another column of the frame does not change a sample of a plane. -/
theorem Frame.plane_write_of_column_ne (f : Frame) (ch : Channel) {x y x' y' c : Nat} (v : Byte) (hx : x < f.w) (hx' : x' < f.w)
    (hc : c < 3) (hne : x ≠ x') :
    (f.withMem (f.mem.write (f.addr x' y' c) v)).plane ch x y = f.plane ch x y := by
  refine f.plane_congr _ ch x y (fun i hi => Memory.read_write_other _ _ _ _ fun haddr => hne ?_)
  exact (f.addr_inj hx hx' hi hc haddr).1

/-- Settles O33, by `Frame.plane_write_of_column_ne`: an even column is never the odd column written. -/
theorem chroma422TakesEvenColumn : Obligations.Chroma422TakesEvenColumn := by
  refine ⟨fun _ _ _ _ => rfl, fun f ch gx y ox oy c v _ hgx _ hox _ hc => ?_⟩
  have hne : 2 * gx ≠ 2 * ox + 1 := by omega
  exact f.plane_write_of_column_ne ch v (by omega) (by omega) hc hne

end Sys2Proof.Machine
end

section
/-! PROOFS. The commands' completion (spec/42_layout_packers.md R150): what a command that is ready does with at least
one pixel, and with none. -/

namespace Sys2Proof.Machine

/-- A command that is ready and has a pixel is accepted as the job of its operands. -/
theorem exec_ready {i : Instr} {s : State} (h : Ready s i.format) (hw : s.width.toNat ≠ 0)
    (hh : s.height.toNat ≠ 0) :
    exec i s = .next
      { s with
        status := Status.cleared, outLen := BitVec.ofNat 32 (outputLen s.width.toNat s.height.toNat i.format)
        job := some ((operands s).job i.format), sched := s.sched.redraw } := by
  have hlen : outputLen (operands s).w (operands s).h i.format ≠ 0 := outputLen_pos i.format hw hh
  rw [exec_eq_issue, issue_accept h.idle ((badDimensions_iff ..).2 h.dimensions) h.contract, accept_some hlen]
  rfl

/-- Settles O14: no parity is asked of a full-resolution format, so the command is ready. -/
theorem fullResolutionCommandsAccept : Obligations.FullResolutionCommandsAccept := by
  intro i s hi hj hw hh hb
  have hfull : subsampled i.format = false := by rcases hi with rfl | rfl | rfl <;> rfl
  exact exec_ready ⟨hj, fun hsub => absurd (hfull.symm.trans hsub) Bool.false_ne_true, hb⟩ hw hh

/-- Settles O15: with W and H even the command is ready. -/
theorem subsampledCommandsAccept : Obligations.SubsampledCommandsAccept :=
  fun _ _ _ hj hw hh hweven hheven hb => exec_ready ⟨hj, fun _ => ⟨hweven, hheven⟩, hb⟩ hw hh

/-- Empty ranges keep the contract wherever they lie in the memory space. -/
theorem contractBreach_of_empty (p : Params) {a b : Nat} (ha : a ≤ Config.memSize) (hb : b ≤ Config.memSize) :
    contractBreach p a 0 b 0 = none := by
  refine (contractBreach_none_iff ..).2 ⟨ha, hb, ?_⟩
  simp [rangesMeet, meetsAny]

/-- The operands of an empty frame keep the contract. -/
theorem breach_of_empty {s : State} (fmt : PixelFormat) (he : s.width.toNat = 0 ∨ s.height.toNat = 0) :
    (operands s).breach s.params fmt = none := by
  have hsource : sourceLen s.width.toNat s.height.toNat = 0 := by rw [sourceLen, Nat.mul_eq_zero.2 he]
  rw [Operands.breach, operands, hsource, outputLen_of_empty fmt he]
  exact contractBreach_of_empty _ s.srcAddr.isLt.le s.dstAddr.isLt.le

/-- Settles O16: an empty frame has no output byte and breaks no contract. -/
theorem emptyFrameFinishesAtOnce : Obligations.EmptyFrameFinishesAtOnce := by
  intro i s hj he hd
  rw [exec_eq_issue, issue_accept hj ((badDimensions_iff ..).2 hd) (breach_of_empty _ he),
    accept_empty (outputLen_of_empty _ he)]
  rfl

end Sys2Proof.Machine
end

section
/-! PROOFS. The sizes of the layouts: the length of each format's output (spec/42_layout_packers.md R151), the dimensions
each format refuses (R150) and the 10-bit expansion (R153). -/

namespace Sys2Proof.Machine

/-! ### Lengths -/

theorem four_mul_half_mul_half {w h : Nat} (hw : w % 2 = 0) (hh : h % 2 = 0) : 4 * (w / 2 * (h / 2)) = w * h := by
  obtain ⟨a, rfl⟩ := Nat.dvd_of_mod_eq_zero hw
  obtain ⟨b, rfl⟩ := Nat.dvd_of_mod_eq_zero hh
  rw [Nat.mul_div_cancel_left a two_pos, Nat.mul_div_cancel_left b two_pos]
  ring

/-- Settles O34: for even sizes the two chroma planes have half as many samples as the luma plane. -/
theorem outputLengths : Obligations.OutputLengths := by
  refine ⟨fun w h => ?_, fun w h hw hh => ?_, by decide⟩
  · have hchroma : 2 * (w / 2) * (h / 2) = 2 * (w / 2 * (h / 2)) := Nat.mul_assoc ..
    simp only [outputLen]
    omega
  · have hchroma := four_mul_half_mul_half hw hh
    have htotal : 3 * w * h = 3 * (w * h) := Nat.mul_assoc ..
    simp only [outputLen]
    omega

/-! ### Dimensions -/

theorem badDimensions_of_fullResolution {fmt : PixelFormat} (h : subsampled fmt = false) (w k : Nat) :
    badDimensions fmt w k = false := by
  simp [badDimensions, h]

theorem badDimensions_of_subsampled {fmt : PixelFormat} (h : subsampled fmt = true) (w k : Nat) :
    badDimensions fmt w k = true ↔ w % 2 = 1 ∨ k % 2 = 1 := by
  simp [badDimensions, h]

/-! ### The 10-bit expansion -/

theorem p10_getLsbD_of_lt (v : Byte) {k : Nat} (hk : k < 6) : (p10 v).getLsbD k = false := by
  simp [p10, hk]

/-- Settles O35: the value by `p10_toNat`, its low bits by the shift. -/
theorem tenBitExpansion : Obligations.TenBitExpansion := by
  refine ⟨fun v => ⟨p10_toNat v, ?_, fun k => p10_getLsbD_of_lt v⟩, by decide, by decide, by decide, by decide,
    by decide, by decide⟩
  have hv := byte_toNat_le v
  omega

end Sys2Proof.Machine
end

section
/-! PROOFS. The layouts as the spec assigns them (spec/42_layout_packers.md R154 to R161): the byte or bytes of the
output that hold a sample, format by format. -/

namespace Sys2Proof.Machine

/-! ### Bottom-up formats -/

/-- Row H - 1 - y of the output is row y of the frame. -/
theorem bottomUp_pixel {w h x y : Nat} (hx : x < w) (hy : y < h) : bottomUp w h ((h - 1 - y) * w + x) = (x, y) := by
  rw [bottomUp, raster_mod _ hx, raster_div _ hx, Nat.sub_sub_self (Nat.le_sub_one_of_lt hy)]

/-- The three bytes of output pixel p. -/
theorem siteRgb24_pixel (w h p : Nat) :
    siteRgb24 w h (3 * p) = .whole (.blue (bottomUp w h p).1 (bottomUp w h p).2) ∧
    siteRgb24 w h (3 * p + 1) = .whole (.green (bottomUp w h p).1 (bottomUp w h p).2) ∧
    siteRgb24 w h (3 * p + 2) = .whole (.red (bottomUp w h p).1 (bottomUp w h p).2) := by
  simp [siteRgb24, Nat.mul_add_div]

/-- The four bytes of output pixel p. -/
theorem siteXrgb32_pixel (w h p : Nat) :
    siteXrgb32 w h (4 * p) = .whole (.blue (bottomUp w h p).1 (bottomUp w h p).2) ∧
    siteXrgb32 w h (4 * p + 1) = .whole (.green (bottomUp w h p).1 (bottomUp w h p).2) ∧
    siteXrgb32 w h (4 * p + 2) = .whole (.red (bottomUp w h p).1 (bottomUp w h p).2) ∧
    siteXrgb32 w h (4 * p + 3) = .whole (.pad (bottomUp w h p).1 (bottomUp w h p).2) := by
  simp [siteXrgb32, Nat.mul_add_div]

/-- An output byte that is a whole sample has the sample's value. -/
theorem Frame.out_of_whole (f : Frame) (fmt : PixelFormat) {i : Nat} {t : Sample}
    (h : siteOf fmt f.w f.h i = .whole t) : f.out fmt i = f.sample t := by
  rw [Frame.out, h, Frame.siteByte]

/-- Settles O36: the bytes of the output pixel that is (x, y). -/
theorem bottomUpLayouts : Obligations.BottomUpLayouts := by
  refine ⟨rfl, rfl, rfl, rfl,
    fun w h => ⟨badDimensions_of_fullResolution rfl w h, badDimensions_of_fullResolution rfl w h⟩,
    fun f x y hx hy => ?_, fun f x y hx hy => ?_⟩
  · have hsites := siteRgb24_pixel f.w f.h ((f.h - 1 - y) * f.w + x)
    rw [bottomUp_pixel hx hy] at hsites
    obtain ⟨hblue, hgreen, hred⟩ := hsites
    exact ⟨f.out_of_whole .rgb24 hblue, f.out_of_whole .rgb24 hgreen, f.out_of_whole .rgb24 hred⟩
  · have hsites := siteXrgb32_pixel f.w f.h ((f.h - 1 - y) * f.w + x)
    rw [bottomUp_pixel hx hy] at hsites
    obtain ⟨hblue, hgreen, hred, hpad⟩ := hsites
    exact ⟨f.out_of_whole .xrgb32 hblue, f.out_of_whole .xrgb32 hgreen, f.out_of_whole .xrgb32 hred,
      f.out_of_whole .xrgb32 hpad⟩

/-! ### Planes -/

theorem planeAt_raster (ch : Channel) {w x : Nat} (y : Nat) (hx : x < w) : planeAt ch w (y * w + x) = .full ch x y := by
  rw [planeAt, raster_mod y hx, raster_div y hx]

theorem planeAt420_raster (ch : Channel) {w cx : Nat} (cy : Nat) (hx : cx < w / 2) :
    planeAt420 ch w (cy * (w / 2) + cx) = .c420 ch cx cy := by
  rw [planeAt420, raster_mod cy hx, raster_div cy hx]

/-- Sample k of each plane of YUV444. -/
theorem siteYuv444_planes {w h k : Nat} (hk : k < w * h) :
    siteYuv444 w h k = .whole (planeAt .y w k) ∧
    siteYuv444 w h (w * h + k) = .whole (planeAt .u w k) ∧
    siteYuv444 w h (2 * (w * h) + k) = .whole (planeAt .v w k) := by
  refine ⟨if_pos hk, ?_, ?_⟩
  · rw [siteYuv444, if_neg (by omega), if_pos (by omega), Nat.add_sub_cancel_left]
  · rw [siteYuv444, if_neg (by omega), if_neg (by omega), Nat.add_sub_cancel_left]

/-- Every byte of YUV444 is a sample of a full-resolution plane. -/
theorem siteYuv444_full (w h i : Nat) : ∃ ch x y, siteYuv444 w h i = .whole (.full ch x y) := by
  unfold siteYuv444
  split
  · exact ⟨_, _, _, rfl⟩
  · split <;> exact ⟨_, _, _, rfl⟩

/-- A sample of any full-resolution plane is in the limited range (R111). -/
theorem Frame.plane_bounds (f : Frame) (ch : Channel) (x y : Nat) :
    16 ≤ (f.plane ch x y).toNat ∧ (f.plane ch x y).toNat ≤ 240 := by
  obtain ⟨hlow, hhigh⟩ := ct_bounds f.ties ch (f.red x y) (f.green x y) (f.blue x y)
  exact ⟨hlow, Int.ofNat_le.1 (hhigh.trans (limitTop_bounds ch).2)⟩

/-- Settles O37: the pixel (x, y) is sample yW + x of each plane. -/
theorem yuv444Layout : Obligations.Yuv444Layout := by
  refine ⟨rfl, rfl, badDimensions_of_fullResolution rfl, fun _ _ _ _ => rfl, fun f x y hx hy => ?_, fun f i _ => ?_⟩
  · obtain ⟨hY, hU, hV⟩ := siteYuv444_planes (raster_lt hx hy)
    rw [planeAt_raster _ _ hx] at hY hU hV
    rw [Nat.mul_assoc 2]
    exact ⟨f.out_of_whole .yuv444 hY, f.out_of_whole .yuv444 hU, f.out_of_whole .yuv444 hV⟩
  · obtain ⟨ch, x, y, hsite⟩ := siteYuv444_full f.w f.h i
    rw [f.out_of_whole .yuv444 hsite]
    exact f.plane_bounds ch x y

theorem siteI420_luma {w h k : Nat} (hk : k < w * h) : siteI420 w h k = .whole (planeAt .y w k) := if_pos hk

/-- Sample k of each chroma plane of I420. -/
theorem siteI420_chroma {w h k : Nat} (hk : k < w / 2 * (h / 2)) :
    siteI420 w h (w * h + k) = .whole (planeAt420 .u w k) ∧
    siteI420 w h (w * h + w / 2 * (h / 2) + k) = .whole (planeAt420 .v w k) := by
  constructor
  · rw [siteI420, if_neg (by omega), if_pos (by omega), Nat.add_sub_cancel_left]
  · rw [siteI420, if_neg (by omega), if_neg (by omega), Nat.add_sub_cancel_left]

/-- Settles O38: raster order in the luma plane and in each chroma plane. -/
theorem i420Layout : Obligations.I420Layout := by
  refine ⟨rfl, rfl, badDimensions_of_subsampled rfl, fun f x y hx hy => ?_, fun f cx cy hx hy => ?_⟩
  · have hY := siteI420_luma (raster_lt hx hy)
    rw [planeAt_raster _ _ hx] at hY
    exact f.out_of_whole .i420 hY
  · obtain ⟨hU, hV⟩ := siteI420_chroma (raster_lt hx hy)
    rw [planeAt420_raster _ _ hx] at hU hV
    exact ⟨f.out_of_whole .i420 hU, f.out_of_whole .i420 hV⟩

/-! ### Interleaved chroma -/

/-- NV12 stores the samples of P010 in their order, a byte each. -/
theorem siteNv12_eq (w h k : Nat) : siteNv12 w h k = .whole (sampleP010 w h k) := by
  unfold siteNv12 sampleP010
  split_ifs <;> rfl

theorem sampleP010_luma {w h k : Nat} (hk : k < w * h) : sampleP010 w h k = planeAt .y w k := if_pos hk

/-- Pair k of the interleaved chroma samples. -/
theorem sampleP010_chroma (w h k : Nat) :
    sampleP010 w h (w * h + 2 * k) = planeAt420 .u w k ∧
    sampleP010 w h (w * h + 2 * k + 1) = planeAt420 .v w k := by
  constructor
  · rw [sampleP010, if_neg (by omega), if_pos (by omega)]
    congr 1
    omega
  · rw [sampleP010, if_neg (by omega), if_neg (by omega)]
    congr 1
    omega

theorem sampleP010_pixel {w h x y : Nat} (hx : x < w) (hy : y < h) : sampleP010 w h (y * w + x) = .full .y x y := by
  rw [sampleP010_luma (raster_lt hx hy), planeAt_raster _ _ hx]

theorem sampleP010_block {w cx : Nat} (h cy : Nat) (hx : cx < w / 2) :
    sampleP010 w h (w * h + 2 * (cy * (w / 2) + cx)) = .c420 .u cx cy ∧
    sampleP010 w h (w * h + 2 * (cy * (w / 2) + cx) + 1) = .c420 .v cx cy := by
  rw [← planeAt420_raster .u cy hx, ← planeAt420_raster .v cy hx]
  exact sampleP010_chroma ..

theorem Frame.out_nv12 (f : Frame) (k : Nat) : f.out .nv12 k = f.sample (sampleP010 f.w f.h k) :=
  f.out_of_whole .nv12 (siteNv12_eq f.w f.h k)

/-- Settles O39: the order of NV12's samples, one to a byte. -/
theorem nv12Layout : Obligations.Nv12Layout := by
  refine ⟨rfl, rfl, badDimensions_of_subsampled rfl, fun f x y hx hy => ?_, fun f cx cy hx hy => ?_⟩
  · rw [f.out_nv12, sampleP010_pixel hx hy, Frame.sample]
  · obtain ⟨hU, hV⟩ := sampleP010_block f.h cy hx
    exact ⟨(f.out_nv12 _).trans (congrArg f.sample hU), (f.out_nv12 _).trans (congrArg f.sample hV)⟩

theorem siteP010_low (w h k : Nat) : siteP010 w h (2 * k) = .low10 (sampleP010 w h k) := by
  rw [siteP010, if_pos (Nat.mul_mod_right 2 k), Nat.mul_div_cancel_left k two_pos]

theorem siteP010_high (w h k : Nat) : siteP010 w h (2 * k + 1) = .high10 (sampleP010 w h k) := by
  rw [siteP010, if_neg (by omega), Nat.mul_add_div two_pos]
  rfl

/-- The two bytes of 16-bit sample k of P010, the one at the higher offset in front, are its 10-bit expansion. -/
theorem Frame.out_p010_pair (f : Frame) (k : Nat) :
    f.out .p010 (2 * k + 1) ++ f.out .p010 (2 * k) = p10 (f.sample (sampleP010 f.w f.h k)) := by
  rw [Frame.out, Frame.out, siteOf, siteP010_high, siteP010_low]
  exact high_append_low _

/-- Settles O41: the order of NV12's samples, two bytes to each. -/
theorem p010Layout : Obligations.P010Layout := by
  refine ⟨rfl, rfl, badDimensions_of_subsampled rfl, fun f x y hx hy => ?_, fun f cx cy hx hy => ?_,
    fun f i k hi hk => ?_⟩
  · rw [f.out_p010_pair, sampleP010_pixel hx hy, Frame.sample]
  · obtain ⟨hU, hV⟩ := sampleP010_block f.h cy hx
    intro j
    have hfirst : 2 * f.w * f.h + 4 * j = 2 * (f.w * f.h + 2 * j) := by ring
    have hsecond : 2 * f.w * f.h + 4 * j + 2 = 2 * (f.w * f.h + 2 * j + 1) := by ring
    refine ⟨?_, ?_⟩
    · rw [hfirst, f.out_p010_pair, hU, Frame.sample]
    · rw [show 2 * f.w * f.h + 4 * j + 3 = 2 * f.w * f.h + 4 * j + 2 + 1 from rfl, hsecond, f.out_p010_pair, hV,
        Frame.sample]
  · obtain ⟨n, rfl⟩ := Nat.dvd_of_mod_eq_zero hi
    rw [Frame.out, siteOf, siteP010_low, Frame.siteByte, BitVec.getLsbD_setWidth, p10_getLsbD_of_lt _ hk,
      Bool.and_false]

/-! ### Packed formats -/

/-- The row of byte c of pair gx of row y, and its offset in the row. -/
theorem packed_coordinates {w gx c : Nat} (y : Nat) (hgx : gx < w / 2) (hc : c < 4) :
    (2 * y * w + 4 * gx + c) / (2 * w) = y ∧ (2 * y * w + 4 * gx + c) % (2 * w) = 4 * gx + c := by
  have hrow : 2 * y * w + 4 * gx + c = y * (2 * w) + (4 * gx + c) := by ring
  have hlt : 4 * gx + c < 2 * w := by omega
  rw [hrow]
  exact ⟨raster_div y hlt, raster_mod y hlt⟩

/-- The four bytes of pair gx of row y in YUYV. -/
theorem siteYuyv_pair {w gx : Nat} (h y : Nat) (hgx : gx < w / 2) :
    siteYuyv w h (2 * y * w + 4 * gx + 0) = .whole (.full .y (2 * gx) y) ∧
    siteYuyv w h (2 * y * w + 4 * gx + 1) = .whole (.c422 .u gx y) ∧
    siteYuyv w h (2 * y * w + 4 * gx + 2) = .whole (.full .y (2 * gx + 1) y) ∧
    siteYuyv w h (2 * y * w + 4 * gx + 3) = .whole (.c422 .v gx y) := by
  refine ⟨?_, ?_, ?_, ?_⟩
  all_goals
    rw [siteYuyv, (packed_coordinates y hgx (by decide)).1, (packed_coordinates y hgx (by decide)).2]
    simp [Nat.mul_add_div]

/-- The four bytes of pair gx of row y in UYVY. -/
theorem siteUyvy_pair {w gx : Nat} (h y : Nat) (hgx : gx < w / 2) :
    siteUyvy w h (2 * y * w + 4 * gx + 0) = .whole (.c422 .u gx y) ∧
    siteUyvy w h (2 * y * w + 4 * gx + 1) = .whole (.full .y (2 * gx) y) ∧
    siteUyvy w h (2 * y * w + 4 * gx + 2) = .whole (.c422 .v gx y) ∧
    siteUyvy w h (2 * y * w + 4 * gx + 3) = .whole (.full .y (2 * gx + 1) y) := by
  refine ⟨?_, ?_, ?_, ?_⟩
  all_goals
    rw [siteUyvy, (packed_coordinates y hgx (by decide)).1, (packed_coordinates y hgx (by decide)).2]
    simp [Nat.mul_add_div]

theorem Frame.out_yuyv_pair (f : Frame) (y : Nat) {gx : Nat} (hgx : gx < f.w / 2) :
    f.out .yuyv (2 * y * f.w + 4 * gx + 0) = f.plane .y (2 * gx) y ∧
    f.out .yuyv (2 * y * f.w + 4 * gx + 1) = f.chroma422 .u gx y ∧
    f.out .yuyv (2 * y * f.w + 4 * gx + 2) = f.plane .y (2 * gx + 1) y ∧
    f.out .yuyv (2 * y * f.w + 4 * gx + 3) = f.chroma422 .v gx y := by
  obtain ⟨hY0, hU, hY1, hV⟩ := siteYuyv_pair f.h y hgx
  exact ⟨f.out_of_whole .yuyv hY0, f.out_of_whole .yuyv hU, f.out_of_whole .yuyv hY1, f.out_of_whole .yuyv hV⟩

theorem Frame.out_uyvy_pair (f : Frame) (y : Nat) {gx : Nat} (hgx : gx < f.w / 2) :
    f.out .uyvy (2 * y * f.w + 4 * gx + 0) = f.chroma422 .u gx y ∧
    f.out .uyvy (2 * y * f.w + 4 * gx + 1) = f.plane .y (2 * gx) y ∧
    f.out .uyvy (2 * y * f.w + 4 * gx + 2) = f.chroma422 .v gx y ∧
    f.out .uyvy (2 * y * f.w + 4 * gx + 3) = f.plane .y (2 * gx + 1) y := by
  obtain ⟨hU, hY0, hV, hY1⟩ := siteUyvy_pair f.h y hgx
  exact ⟨f.out_of_whole .uyvy hU, f.out_of_whole .uyvy hY0, f.out_of_whole .uyvy hV, f.out_of_whole .uyvy hY1⟩

/-- Settles O40: the four bytes of a pair, in each format's order. -/
theorem packedLayouts : Obligations.PackedLayouts :=
  ⟨rfl, rfl, rfl, rfl, fun w h => ⟨badDimensions_of_subsampled rfl w h, badDimensions_of_subsampled rfl w h⟩,
    fun f _ y _ hgx _ => ⟨f.out_yuyv_pair y hgx, f.out_uyvy_pair y hgx⟩⟩

end Sys2Proof.Machine
end

section
/-! PROOFS. Each output byte has one sample (spec/42_layout_packers.md R163): an offset is found again from what its byte
holds. -/

namespace Sys2Proof.Machine

/-! ### Where a format stores a sample -/

/-- The offset of a component in RGB24 (R154). -/
def rgb24Offset (w h : Nat) : Sample → Nat
  | .blue x y => 3 * ((h - 1 - y) * w + x)
  | .green x y => 3 * ((h - 1 - y) * w + x) + 1
  | .red x y => 3 * ((h - 1 - y) * w + x) + 2
  | _ => 0

/-- The offset of a component or of the fourth byte in XRGB32 (R155). -/
def xrgb32Offset (w h : Nat) : Sample → Nat
  | .blue x y => 4 * ((h - 1 - y) * w + x)
  | .green x y => 4 * ((h - 1 - y) * w + x) + 1
  | .red x y => 4 * ((h - 1 - y) * w + x) + 2
  | .pad x y => 4 * ((h - 1 - y) * w + x) + 3
  | _ => 0

/-- The offset of a sample in YUV444 (R156). -/
def yuv444Offset (w h : Nat) : Sample → Nat
  | .full .y x y => y * w + x
  | .full .u x y => w * h + (y * w + x)
  | .full .v x y => 2 * (w * h) + (y * w + x)
  | _ => 0

/-- The offset of a sample in I420 (R157). -/
def i420Offset (w h : Nat) : Sample → Nat
  | .full _ x y => y * w + x
  | .c420 .u cx cy => w * h + (cy * (w / 2) + cx)
  | .c420 _ cx cy => w * h + w / 2 * (h / 2) + (cy * (w / 2) + cx)
  | _ => 0

/-- The offset of a sample in NV12, and its number among the 16-bit samples of P010 (R158, R161). -/
def nv12Offset (w h : Nat) : Sample → Nat
  | .full _ x y => y * w + x
  | .c420 .u cx cy => w * h + 2 * (cy * (w / 2) + cx)
  | .c420 _ cx cy => w * h + 2 * (cy * (w / 2) + cx) + 1
  | _ => 0

/-- The offset of a sample in YUYV (R159). -/
def yuyvOffset (w : Nat) : Sample → Nat
  | .full _ x y => 2 * w * y + 2 * x
  | .c422 .u gx y => 2 * w * y + 4 * gx + 1
  | .c422 _ gx y => 2 * w * y + 4 * gx + 3
  | _ => 0

/-- The offset of a sample in UYVY (R160). -/
def uyvyOffset (w : Nat) : Sample → Nat
  | .full _ x y => 2 * w * y + 2 * x + 1
  | .c422 .u gx y => 2 * w * y + 4 * gx
  | .c422 _ gx y => 2 * w * y + 4 * gx + 2
  | _ => 0

/-- The offset at which a format stores what an output byte holds. -/
def offsetOf (fmt : PixelFormat) (w h : Nat) : Site → Nat
  | .whole t =>
    match fmt with
    | .rgb24 => rgb24Offset w h t
    | .xrgb32 => xrgb32Offset w h t
    | .yuv444 => yuv444Offset w h t
    | .i420 => i420Offset w h t
    | .nv12 => nv12Offset w h t
    | .yuyv => yuyvOffset w t
    | .uyvy => uyvyOffset w t
    | .p010 => 0
  | .low10 t => 2 * nv12Offset w h t
  | .high10 t => 2 * nv12Offset w h t + 1

/-! ### The offset is found again -/

/-- The number of an output pixel is found again from its column and its row of the frame. -/
theorem bottomUp_number {w h p : Nat} (hp : p < w * h) :
    (h - 1 - (bottomUp w h p).2) * w + (bottomUp w h p).1 = p := by
  obtain ⟨-, hrow, hnumber⟩ := raster_inv hp
  rw [bottomUp, Nat.sub_sub_self (Nat.le_sub_one_of_lt hrow), hnumber]

theorem offsetOf_siteRgb24 {w h i : Nat} (hi : i < 3 * (w * h)) : offsetOf .rgb24 w h (siteRgb24 w h i) = i := by
  have hnumber := bottomUp_number (show i / 3 < w * h by omega)
  obtain hbyte | hbyte | hbyte : i % 3 = 0 ∨ i % 3 = 1 ∨ i % 3 = 2 := by omega
  all_goals
    simp only [siteRgb24, hbyte, offsetOf, rgb24Offset, hnumber]
    omega

theorem mod_four_cases (n : Nat) : n % 4 = 0 ∨ n % 4 = 1 ∨ n % 4 = 2 ∨ n % 4 = 3 := by omega

theorem offsetOf_siteXrgb32 {w h i : Nat} (hi : i < 4 * (w * h)) : offsetOf .xrgb32 w h (siteXrgb32 w h i) = i := by
  have hnumber := bottomUp_number (show i / 4 < w * h by omega)
  obtain hbyte | hbyte | hbyte | hbyte := mod_four_cases i
  all_goals
    simp only [siteXrgb32, hbyte, offsetOf, xrgb32Offset, hnumber]
    omega

theorem offsetOf_siteYuv444 (w h i : Nat) : offsetOf .yuv444 w h (siteYuv444 w h i) = i := by
  unfold siteYuv444
  split
  · exact Nat.div_add_mod' i w
  · split <;> simp only [offsetOf, planeAt, yuv444Offset, Nat.div_add_mod'] <;> omega

theorem offsetOf_siteI420 (w h i : Nat) : offsetOf .i420 w h (siteI420 w h i) = i := by
  unfold siteI420
  split
  · exact Nat.div_add_mod' i w
  · split <;> simp only [offsetOf, planeAt420, i420Offset, Nat.div_add_mod'] <;> omega

theorem nv12Offset_sampleP010 (w h k : Nat) : nv12Offset w h (sampleP010 w h k) = k := by
  unfold sampleP010
  split
  · exact Nat.div_add_mod' k w
  · split <;> simp only [planeAt420, nv12Offset, Nat.div_add_mod'] <;> omega

theorem offsetOf_siteNv12 (w h i : Nat) : offsetOf .nv12 w h (siteNv12 w h i) = i := by
  rw [siteNv12_eq]
  exact nv12Offset_sampleP010 w h i

theorem offsetOf_siteP010 (w h i : Nat) : offsetOf .p010 w h (siteP010 w h i) = i := by
  unfold siteP010
  split <;> simp only [offsetOf, nv12Offset_sampleP010] <;> omega

theorem offsetOf_siteYuyv (w h i : Nat) : offsetOf .yuyv w h (siteYuyv w h i) = i := by
  have hrow := Nat.div_add_mod i (2 * w)
  obtain hbyte | hbyte | hbyte | hbyte := mod_four_cases (i % (2 * w))
  all_goals
    simp only [siteYuyv, hbyte, offsetOf, yuyvOffset]
    omega

theorem offsetOf_siteUyvy (w h i : Nat) : offsetOf .uyvy w h (siteUyvy w h i) = i := by
  have hrow := Nat.div_add_mod i (2 * w)
  obtain hbyte | hbyte | hbyte | hbyte := mod_four_cases (i % (2 * w))
  all_goals
    simp only [siteUyvy, hbyte, offsetOf, uyvyOffset]
    omega

/-- What a byte of the output holds determines its offset. -/
theorem offsetOf_siteOf {fmt : PixelFormat} {w h i : Nat} (hi : i < outputLen w h fmt) :
    offsetOf fmt w h (siteOf fmt w h i) = i := by
  cases fmt with
  | rgb24 => exact offsetOf_siteRgb24 hi
  | xrgb32 => exact offsetOf_siteXrgb32 hi
  | yuv444 => exact offsetOf_siteYuv444 w h i
  | i420 => exact offsetOf_siteI420 w h i
  | nv12 => exact offsetOf_siteNv12 w h i
  | yuyv => exact offsetOf_siteYuyv w h i
  | uyvy => exact offsetOf_siteUyvy w h i
  | p010 => exact offsetOf_siteP010 w h i

/-- Settles O42: equal sites have one offset, and every site's pixels are inside. -/
theorem eachOutputByteHasOneSample : Obligations.EachOutputByteHasOneSample := by
  refine fun fmt w h hd => ⟨fun i k hi hk hsite => ?_, fun i hi => siteOf_inside hd hi⟩
  rw [← offsetOf_siteOf hi, hsite, offsetOf_siteOf hk]

end Sys2Proof.Machine
end

section
/-! PROOFS. The laws between the formats (spec/42_layout_packers.md R164). -/

namespace Sys2Proof.Machine

/-- NV12 and I420 share the luma plane. -/
theorem Frame.out_nv12_luma (f : Frame) {k : Nat} (hk : k < f.w * f.h) : f.out .nv12 k = f.out .i420 k := by
  rw [f.out_nv12, sampleP010_luma hk, f.out_of_whole .i420 (siteI420_luma hk)]

/-- Pair k of NV12's chroma is the sample k of each chroma plane of I420. -/
theorem Frame.out_nv12_chroma (f : Frame) {k : Nat} (hk : k < f.w / 2 * (f.h / 2)) :
    f.out .nv12 (f.w * f.h + 2 * k) = f.out .i420 (f.w * f.h + k) ∧
    f.out .nv12 (f.w * f.h + 2 * k + 1) = f.out .i420 (f.w * f.h + f.w / 2 * (f.h / 2) + k) := by
  obtain ⟨hU, hV⟩ := siteI420_chroma hk
  obtain ⟨hU', hV'⟩ := sampleP010_chroma f.w f.h k
  rw [f.out_of_whole .i420 hU, f.out_of_whole .i420 hV, f.out_nv12, f.out_nv12, hU', hV']
  exact ⟨rfl, rfl⟩

/-- An offset of a packed format that is a multiple of 4 is the first of a pair of pixels. -/
theorem packed_pair {w h i : Nat} (hw : w % 2 = 0) (hi4 : i % 4 = 0) (hi : i < 2 * (w * h)) :
    ∃ gx y, gx < w / 2 ∧ i = 2 * y * w + 4 * gx := by
  obtain ⟨hx, -, hnumber⟩ := raster_inv (show i < 2 * w * h by rwa [Nat.mul_assoc])
  have hcolumn : i % (2 * w) % 4 = 0 := by rw [Nat.mod_mod_of_dvd i (by omega), hi4]
  refine ⟨i % (2 * w) / 4, i / (2 * w), by omega, ?_⟩
  have hrow : 2 * (i / (2 * w)) * w = i / (2 * w) * (2 * w) := by ring
  rw [Nat.mul_div_cancel' (Nat.dvd_of_mod_eq_zero hcolumn), hrow, hnumber]

/-- Neighbouring bytes of a pair of pixels are exchanged between UYVY and YUYV. -/
theorem Frame.out_uyvy_swap (f : Frame) (y : Nat) {gx : Nat} (hgx : gx < f.w / 2) :
    let i := 2 * y * f.w + 4 * gx
    f.out .uyvy i = f.out .yuyv (i + 1) ∧ f.out .uyvy (i + 1) = f.out .yuyv i ∧
    f.out .uyvy (i + 2) = f.out .yuyv (i + 3) ∧ f.out .uyvy (i + 3) = f.out .yuyv (i + 2) := by
  obtain ⟨hY0, hU, hY1, hV⟩ := f.out_yuyv_pair y hgx
  obtain ⟨hU', hY0', hV', hY1'⟩ := f.out_uyvy_pair y hgx
  exact ⟨hU'.trans hU.symm, hY0'.trans hY0.symm, hV'.trans hV.symm, hY1'.trans hY1.symm⟩

/-- Settles O44: each law is that of two formats' bytes of one sample; (d) is the rejection of odd dimensions. -/
theorem crossFormatLaws : Obligations.CrossFormatLaws := by
  refine ⟨fun f hw _ => ⟨fun i => f.out_nv12_luma, fun j => f.out_nv12_chroma, fun i hi4 hi => ?_, fun k _ => ?_⟩,
    fun i s t hsub hodd hj h => ?_⟩
  · obtain ⟨gx, y, hgx, rfl⟩ := packed_pair hw hi4 hi
    exact f.out_uyvy_swap y hgx
  · rw [f.out_p010_pair, f.out_nv12]
  · rw [exec_eq_issue, issue_bad hj ((badDimensions_of_subsampled hsub ..).2 hodd)] at h
    cases h
    exact ⟨rfl, hj, rfl⟩

end Sys2Proof.Machine
end

section
/-! PROOFS. A command from its issue to the encoding of its frame (spec/42_layout_packers.md R150, spec/20_memory.md
R62). -/

namespace Sys2Proof.Machine

theorem Operands.remaining_job (o : Operands) (fmt : PixelFormat) :
    (o.job fmt).remaining.length = outputLen o.w o.h fmt := by
  simp [Job.remaining, Operands.job]

/-- With no job and DONE alone set STATUS reads 2. -/
theorem readStatus_of_finished {t : State} (hj : t.job = none) (hst : t.status = Status.finished) :
    (readOffset t 0x04).toNat = 2 := by
  have hread : readOffset t 0x04 = statusWord t.busy t.status := rfl
  rw [hread, (State.busy_eq_false t).2 hj, hst]
  rfl

/-- Settles O59: the issue starts the job of the command's operands with nothing written, in a state of the invariant, and
such a job is completed after LEN steps (`run_completes`). -/
theorem commandEncodesTheFrame : Obligations.CommandEncodesTheFrame := by
  intro i s h hready hw hh hrest hall j
  have hexec := exec_ready hready hw hh
  have hd := (badDimensions_iff ..).2 hready.dimensions
  have hlen : outputLen (operands s).w (operands s).h i.format ≠ 0 := outputLen_pos i.format hw hh
  have hinv := h.accept hd hready.contract
  obtain ⟨-, houtLen⟩ := accept_outLen hready.contract
  rw [accept_some hlen] at hinv houtLen
  obtain ⟨t, hrun, ht⟩ := run_completes hinv rfl rfl hrest hall (Operands.remaining_job ..)
  exact ⟨rfl, rfl, rfl, rfl, rfl, rfl, _, t, hexec, rfl, hrun, readStatus_of_finished ht.job ht.status,
    (congrArg BitVec.toNat ht.outLen).trans houtLen, ht.output, ht.others⟩

end Sys2Proof.Machine
end

section
/-! PROOFS. The checks of a command word, in their order, and what a rejection leaves (spec/60_exceptions.md R200 to
R205). -/

namespace Sys2Proof.Machine

/-! ### A command word's outcomes -/

/-- A word that names a format issues the one shared operation with that format. -/
theorem regWrite_cmd_of_ok (s : State) {c : Word} {i : Instr} (h : decodeWord c = .ok i) :
    regWrite s 0x00 c = issue i.format s :=
  (cmdWrite_of_ok s h).trans (exec_eq_issue i s)

theorem regWrite_cmd_of_gt {s : State} {c : Word} (hj : s.job = none) (hc : 7 < c.toNat) :
    regWrite s 0x00 c = .next (s.reject .invalidFormatName) :=
  (cmdWrite_of_error s ((decodeWord_error_iff c _).2 ⟨hc, rfl⟩)).trans (issueUnknown_idle hj)

/-- Every next state a command word can have: the same one while busy; else that of a rejection for the format, of a
rejection for the dimensions, or of an acceptance. -/
theorem regWrite_cmd_next {s t : State} {c : Word} (h : regWrite s 0x00 c = .next t) :
    (s.busy = true ∧ t = s) ∨
    (s.job = none ∧ 7 < c.toNat ∧ t = s.reject .invalidFormatName) ∨
    (s.job = none ∧ ∃ i, decodeWord c = .ok i ∧ badDimensions i.format s.width.toNat s.height.toNat = true ∧
      t = s.reject .invalidDimensions) ∨
    (s.job = none ∧ ∃ i, decodeWord c = .ok i ∧ badDimensions i.format s.width.toNat s.height.toNat = false ∧
      (operands s).breach s.params i.format = none ∧ t = s.accept i.format (operands s)) := by
  cases hbusy : s.busy with
  | true =>
    cases (regWrite_busy 0x00 c hbusy).symm.trans h
    exact .inl ⟨rfl, rfl⟩
  | false =>
    have hj := (State.busy_eq_false s).1 hbusy
    right
    cases hc : decodeWord c with
    | error e =>
      obtain ⟨hgt, -⟩ := (decodeWord_error_iff c e).1 hc
      cases (regWrite_cmd_of_gt hj hgt).symm.trans h
      exact .inl ⟨hj, hgt, rfl⟩
    | ok i =>
      rw [regWrite_cmd_of_ok s hc] at h
      right
      obtain ⟨hb, -⟩ | ⟨-, hd, he⟩ | ⟨-, -, r, -, he⟩ | ⟨-, hd, hr, he⟩ := issue_cases i.format s
      · exact absurd (hb.symm.trans hbusy) Bool.noConfusion
      · cases he.symm.trans h
        exact .inl ⟨hj, i, rfl, hd, rfl⟩
      · cases he.symm.trans h
      · cases he.symm.trans h
        exact .inr ⟨hj, i, rfl, hd, hr, rfl⟩

/-- A rejection keeps no trace of an earlier one. -/
@[simp] theorem State.reject_reject (s : State) (e e' : ErrCode) : (s.reject e).reject e' = s.reject e' := rfl

/-- An acceptance sets STATUS, OUT_LEN, the job and the schedule, and nothing else. -/
theorem State.accept_eq_update (s : State) (fmt : PixelFormat) (o : Operands) :
    ∃ st n j d, s.accept fmt o = { s with status := st, outLen := n, job := j, sched := d } := by
  by_cases hlen : outputLen o.w o.h fmt = 0
  · exact ⟨_, _, _, _, accept_empty hlen⟩
  · exact ⟨_, _, _, _, accept_some hlen⟩

/-- An accepted command reports no error, whether it runs or finishes at once. -/
theorem State.accept_no_error (s : State) (fmt : PixelFormat) (o : Operands) :
    (s.accept fmt o).status.err = false ∧ (s.accept fmt o).status.errcode = .none := by
  by_cases hlen : outputLen o.w o.h fmt = 0
  · rw [accept_empty hlen]; exact ⟨rfl, rfl⟩
  · rw [accept_some hlen]; exact ⟨rfl, rfl⟩

/-! ### The checks -/

/-- Settles O18: the word decodes to no instruction. -/
theorem unknownWordRejected : Obligations.UnknownWordRejected :=
  fun _ _ => regWrite_cmd_of_gt

/-- A command of good dimensions is not rejected: its next state is that of its acceptance. -/
theorem exec_no_error_of_goodDimensions {i : Instr} {s t : State} (hj : s.job = none)
    (hd : badDimensions i.format s.width.toNat s.height.toNat = false) (h : exec i s = .next t) :
    t.status.err = false := by
  rw [exec_eq_issue] at h
  cases hb : (operands s).breach s.params i.format with
  | some r => cases (issue_breach hj hd hb).symm.trans h
  | none =>
    cases (issue_accept hj hd hb).symm.trans h
    exact (s.accept_no_error ..).1

/-- Settles O17: odd dimensions are bad for a subsampled format alone, and even ones for no format. -/
theorem oddDimensionsRejected : Obligations.OddDimensionsRejected := by
  refine ⟨fun i s hi hj hodd => ?_, fun i s t hi hj => ?_, fun i s t hw hh hj => ?_⟩
  · have hsub : subsampled i.format = true := by rcases hi with rfl | rfl | rfl | rfl | rfl <;> rfl
    rw [exec_eq_issue, issue_bad hj ((badDimensions_of_subsampled hsub ..).2 hodd)]
    rfl
  · have hfull : subsampled i.format = false := by rcases hi with rfl | rfl | rfl <;> rfl
    exact exec_no_error_of_goodDimensions hj (badDimensions_of_fullResolution hfull ..)
  · exact exec_no_error_of_goodDimensions hj ((badDimensions_iff ..).2 fun _ => ⟨hw, hh⟩)

/-- Settles O19: one outcome of the command word for each check that fails first, and one for none. -/
theorem checksAreMadeInOrder : Obligations.ChecksAreMadeInOrder := by
  intro s c hj
  refine ⟨fun hc => ?_, fun i hi hd => ?_, fun i r hi hd hb => ?_, fun i hi hd hb => ?_⟩
  · exact ⟨_, regWrite_cmd_of_gt hj hc, rfl⟩
  · exact ⟨_, (regWrite_cmd_of_ok s hi).trans (issue_bad hj hd), rfl⟩
  · exact (regWrite_cmd_of_ok s hi).trans (issue_breach hj hd hb)
  · exact ⟨_, (regWrite_cmd_of_ok s hi).trans (issue_accept hj hd hb), s.accept_no_error ..⟩

/-! ### What issuing leaves -/

/-- A command word sets STATUS, OUT_LEN, the job and the schedule at most. -/
theorem regWrite_cmd_eq_update {s t : State} {c : Word} (h : regWrite s 0x00 c = .next t) :
    ∃ st n j d, t = { s with status := st, outLen := n, job := j, sched := d } := by
  obtain ⟨-, rfl⟩ | ⟨-, -, rfl⟩ | ⟨-, i, -, -, rfl⟩ | ⟨-, i, -, -, -, rfl⟩ := regWrite_cmd_next h
  · exact ⟨_, _, _, _, rfl⟩
  · exact ⟨_, _, _, _, rfl⟩
  · exact ⟨_, _, _, _, rfl⟩
  · exact s.accept_eq_update ..

/-- Settles O22: the registers, the parameters, the host and memory are none of the fields a command word sets. -/
theorem issuingFrame : Obligations.IssuingFrame := by
  intro c s t h
  obtain ⟨st, n, j, d, rfl⟩ := regWrite_cmd_eq_update h
  exact ⟨rfl, rfl, rfl, rfl, rfl, rfl, fun _ => rfl⟩

/-- Settles O24: a rejection leaves the block idle with the registers its check reads, so the check fails again, and a
rejection of the rejected state is that state (`State.reject_reject`). -/
theorem rejectionRepeats : Obligations.RejectionRepeats := by
  intro c s t hj h herr
  obtain ⟨hbusy, -⟩ | ⟨-, hgt, rfl⟩ | ⟨-, i, hi, hd, rfl⟩ | ⟨-, i, -, -, -, rfl⟩ := regWrite_cmd_next h
  · exact absurd (hbusy.symm.trans ((State.busy_eq_false s).2 hj)) Bool.noConfusion
  · rw [regWrite_cmd_of_gt (s := s.reject _) hj hgt, State.reject_reject]
  · rw [regWrite_cmd_of_ok _ hi, issue_bad (s := s.reject _) hj hd, State.reject_reject]
  · obtain ⟨hok, -⟩ := s.accept_no_error i.format (operands s)
    exact absurd (hok.symm.trans herr) Bool.noConfusion

end Sys2Proof.Machine
end

section
/-! PROOFS. Reset and weak fairness (spec/70_reset_and_hazards.md R230 to R232, R240): the state at reset, a reset of the
block, and the measure that every step with a running job lowers. -/

namespace Sys2Proof.Machine

/-! ### Reset -/

/-- Settles O1: each offset of the register table reads its field of the reset state, CMD and offset 0x1C read 0. -/
theorem resetRegisterValues : Obligations.ResetRegisterValues :=
  ⟨rfl, rfl, rfl, rfl, rfl, rfl, rfl, readOffset_reserved State.reset (regAt_reserved (by decide)), rfl, rfl⟩

/-- A step of the host whose statement is a reset of the block. -/
theorem step_reset {s : State} {rest : List HostStmt} (hturn : s.engineTurn = none) (hr : s.host.rest = .reset :: rest) :
    step s = .next (s.advance rest).blockReset :=
  step_of_stmt hturn hr

/-- Settles O2: `step_reset`, its state written out field by field. -/
theorem blockResetAbandonsJob : Obligations.BlockResetAbandonsJob := fun _ _ => step_reset

/-- Settles O54: the reset state is idle, memory lists nothing, and STATUS is cleared. -/
theorem resetSatisfiesInvariant : Obligations.ResetSatisfiesInvariant :=
  Inv.of_idle Memory.wf_nil Status.consistent_cleared rfl

/-! ### Weak fairness -/

/-- The engine's step ends the job, gets it stuck, or leaves fewer offsets to write. -/
theorem engineStep_progress {j : Job} {s t : State} (h : engineStep j s = .next t) :
    t.job = none ∨ ∃ j', t.job = some j' ∧ (j'.stuck = true ∨ j'.remaining.length < j.remaining.length) := by
  obtain ⟨-, hs⟩ | ⟨i, hi, -, hs⟩ | ⟨i, -, -, hs⟩ := engineStep_cases j s <;> cases hs.symm.trans h
  · exact .inl rfl
  · by_cases hlast : { j with written := insertOffset i j.written : Job }.remaining = []
    · exact .inl (s.writeOut_last j i hlast).1
    · have hleft := remaining_length_insert j i hi
      exact .inr ⟨_, (s.writeOut_more j i hlast).1, .inr (by omega)⟩
  · exact .inr ⟨_, rfl, .inl rfl⟩

/-- With an active job every statement but a reset of the block leaves the job and uses up one of the host's steps. -/
theorem HostEffect.job_and_burst {s t : State} {j : Job} {rest : List HostStmt} (h : HostEffect (s.advance rest) t)
    (hj : s.job = some j) : t.job = some j ∧ t.sched.burst = s.sched.burst - 1 := by
  have hadv : (s.advance rest).job = some j := hj
  obtain ⟨hjob, -, -, -, -, -, -, hsched, -⟩ := h.of_job hadv
  exact ⟨hjob.trans hadv, congrArg Sched.burst hsched⟩

/-- Settles O57: the engine's step by `engineStep_progress`; it is the host's turn only while it has a statement and steps
left, of which the statement uses up one, unless it resets the block. -/
theorem everyStepMakesProgress : Obligations.EveryStepMakesProgress := by
  intro s t j hj hstuck h
  obtain ⟨k, hturn, hengine⟩ | ⟨hturn, hrest, -⟩ | ⟨-, rest, -, rfl⟩ | ⟨hturn, st, rest, -, -, heffect⟩ := step_cases h
  · obtain rfl : k = j := Option.some.inj ((engineTurn_some hturn).1.symm.trans hj)
    obtain hended | ⟨j', hj', hless⟩ := engineStep_progress hengine
    · exact .inl hended
    · exact .inr ⟨j', hj', hless.imp_right .inl⟩
  · exact absurd hrest (engineTurn_none hturn hj hstuck).1
  · exact .inl rfl
  · obtain ⟨hjob, hburst⟩ := heffect.job_and_burst hj
    have hleft := (engineTurn_none hturn hj hstuck).2
    exact .inr ⟨j, hjob, .inr (.inr ⟨rfl, by omega⟩)⟩

end Sys2Proof.Machine
end
